-- ==== Sys2Proof/Word.lean ====
section
/-! DEFINITION. The plain data CLM-AES works on: bytes, offsets, byte sequences and the 4-byte word
(00_scope.md rules R9, R10; 10_state.md rules R26 to R28). -/

namespace Sys2Proof

/-- A byte: an 8-bit unsigned value, bit 0 least significant (R9). -/
abbrev Byte := BitVec 8

/-- A host register offset, 0x000 to 0x1FF (R8, R50). -/
abbrev Offset := BitVec 9

/-- A block `b[0..15]`, byte 0 first (R10). -/
abbrev Block := Vector Byte 16

/-- The raw key store `KEY[0..31]` (R27). -/
abbrev KeyBytes := Vector Byte 32

/-- The round-key store `RK[0..239]` (R28). -/
abbrev RoundKeys := Vector Byte 240

/-- A word: the byte sequence `(a0, a1, a2, a3)`, never read as an integer (R10).
A state column is such a word, row 0 first (R14). -/
structure Word where
  a0 : Byte
  a1 : Byte
  a2 : Byte
  a3 : Byte
  deriving DecidableEq, Repr

/-- XOR of two words is bytewise (R10). -/
def Word.xor (x y : Word) : Word :=
  ⟨x.a0 ^^^ y.a0, x.a1 ^^^ y.a1, x.a2 ^^^ y.a2, x.a3 ^^^ y.a3⟩

/-- Byte `j` of a word; the index is taken modulo 4, as in `w[j div 4][j mod 4]` (R122). -/
def Word.byte (w : Word) (j : Nat) : Byte :=
  match j % 4 with
  | 0 => w.a0
  | 1 => w.a1
  | 2 => w.a2
  | _ => w.a3

/-- The zero word. -/
def Word.zero : Word := ⟨0, 0, 0, 0⟩

/-- Concatenation of bytes of a word list, in order (R10's `‖`). -/
def Word.bytes (w : Word) : List Byte := [w.a0, w.a1, w.a2, w.a3]

end Sys2Proof
end

