-- ==== Sys2Proof/Config.lean ====
section
/-! DEFINITION. The fixed parameters of CLM-AES (00_scope.md rules R7, R8). The spec leaves no
parameter open (R8, R18), so there is no free value and no opaque constant here. -/

namespace Sys2Proof

/-- Bytes in a block (R7). -/
def Config.blockBytes : Nat := 16

/-- Nb, the number of state columns (R7). -/
def Config.nb : Nat := 4

/-- The legal key lengths in bytes (R7). -/
def Config.keyLengths : List Nat := [16, 24, 32]

/-- Round-key store capacity in bytes: 15 round keys of 16 bytes (R8). -/
def Config.roundKeyBytes : Nat := 240

/-- Host data width in bits (R8). -/
def Config.dataBits : Nat := 8

/-- Host offset width in bits (R8). -/
def Config.offsetBits : Nat := 9

end Sys2Proof
end

