-- ==== Sys2Proof/Syntax.lean ====
section
/-! DEFINITION. The instructions of CLM-AES, one constructor for each row of spec/opcode_table.json:
the twelve commands (30_encoding.md rule R72), the illegal command space (R74) and the two host
transactions (20_memory.md rule R51); and the signals of the host port (R77). -/

namespace Sys2Proof

/-- One constructor per row of the opcode table. A command names no register (R75); its only
immediate is ADD_ROUND_KEY's round index. A command with a nonzero ARG where ARG must be 0 is
`illegalCmd` (R73). -/
inductive Instr where
  /-- NOP (R100). -/
  | nop
  /-- EXPAND_KEY (R122). -/
  | expandKey
  /-- ENCRYPT (R101). -/
  | encrypt
  /-- DECRYPT (R102). -/
  | decrypt
  /-- SUB_BYTES (R142). -/
  | subBytes
  /-- INV_SUB_BYTES (R161). -/
  | invSubBytes
  /-- SHIFT_ROWS (R144). -/
  | shiftRows
  /-- INV_SHIFT_ROWS (R163). -/
  | invShiftRows
  /-- MIX_COLUMNS (R147). -/
  | mixColumns
  /-- INV_MIX_COLUMNS (R166). -/
  | invMixColumns
  /-- ADD_ROUND_KEY r, `r` = ARG (R149). -/
  | addRoundKey (r : BitVec 4)
  /-- GF_MUL (R183). -/
  | gfMul
  /-- Any command byte that no other row matches (R74). -/
  | illegalCmd (v : Byte)
  /-- HostWrite(off, v) (R51). -/
  | hostWrite (off : Offset) (v : Byte)
  /-- HostRead(off) (R51). -/
  | hostRead (off : Offset)
  deriving DecidableEq, Repr

/-- One host transaction as the port carries it: the separate signals W, OFF and DATA (R77, D1).
`w` is true for a write. -/
structure Txn where
  w : Bool
  off : Offset
  data : Byte
  deriving DecidableEq, Repr

/-- What the outside world does to the engine, one event at a time (R50, R59, R230): a host
transaction, or an assertion of the reset input. -/
inductive PortInput where
  | reset
  | txn (t : Txn)
  deriving DecidableEq, Repr

/-- A word in one of the two formats of spec/opcode_table.json: the 8-bit command byte (`cmd8`,
R71) and the 18-bit host transaction word (`host_txn18`, R77). -/
inductive TableWord where
  | cmd8 (b : Byte)
  | txn18 (w : BitVec 18)
  deriving DecidableEq, Repr

end Sys2Proof
end

