-- ==== Sys2Proof/WellFormed.lean ====
section
/-! DEFINITION. Which instructions are well formed. Offsets, data bytes and the round index are held
in types of their exact widths, so the one thing left to check is that an `illegalCmd` holds a byte
of the illegal space (30_encoding.md rules R73, R74). -/

namespace Sys2Proof

/-- The byte is one of the 27 legal command bytes: 0x00 to 0x09, 0x0B, and 0xRA for every R (R74). -/
def legalByte (v : Byte) : Bool :=
  decide (v.toNat ≤ 0x09) || v == 0x0B#8 || (v &&& 0x0F#8) == 0x0A#8

/-- Well-formed instructions: an `illegalCmd` holds a byte that no command row matches (R74);
everything else is well formed by its type. -/
def Instr.wf : Instr → Bool
  | .nop => true
  | .expandKey => true
  | .encrypt => true
  | .decrypt => true
  | .subBytes => true
  | .invSubBytes => true
  | .shiftRows => true
  | .invShiftRows => true
  | .mixColumns => true
  | .invMixColumns => true
  | .addRoundKey _ => true
  | .gfMul => true
  | .illegalCmd v => !legalByte v
  | .hostWrite _ _ => true
  | .hostRead _ => true

/-- The instruction is a command (R72, R74), not a host transaction (R51). -/
def Instr.isCommand : Instr → Bool
  | .hostWrite _ _ => false
  | .hostRead _ => false
  | .nop => true
  | .expandKey => true
  | .encrypt => true
  | .decrypt => true
  | .subBytes => true
  | .invSubBytes => true
  | .shiftRows => true
  | .invShiftRows => true
  | .mixColumns => true
  | .invMixColumns => true
  | .addRoundKey _ => true
  | .gfMul => true
  | .illegalCmd _ => true

end Sys2Proof
end

