-- ==== Sys2Proof/Decode.lean ====
section
/-! DEFINITION. Decoding and encoding, from 30_encoding.md: the command byte (R70 to R76, R80) and
the host transaction word of the test notation (R77). The command decoder is total (R74). -/

namespace Sys2Proof

/-! ### The command byte -/

/-- OP, bits 3:0 of a command byte (R71). -/
def opField (v : Byte) : BitVec 4 := v.extractLsb' 0 4

/-- ARG, bits 7:4 of a command byte (R71). -/
def argField (v : Byte) : BitVec 4 := v.extractLsb' 4 4

/-- The command byte with the given fields: `(ARG << 4) | OP` (R71, R78). -/
def commandByte (arg op : BitVec 4) : Byte := (arg.setWidth 8 <<< 4) ||| op.setWidth 8

/-- A command whose ARG must be 0 (R73): with another ARG the byte is illegal. -/
def plainCommand (v : Byte) (i : Instr) : Instr :=
  if argField v = 0 then i else .illegalCmd v

/-- The command a byte names (R70's case, R72, R73, R74). Every byte has exactly one outcome. -/
def decodeCommand (v : Byte) : Instr :=
  match (opField v).toNat with
  | 0x0 => plainCommand v .nop
  | 0x1 => plainCommand v .expandKey
  | 0x2 => plainCommand v .encrypt
  | 0x3 => plainCommand v .decrypt
  | 0x4 => plainCommand v .subBytes
  | 0x5 => plainCommand v .invSubBytes
  | 0x6 => plainCommand v .shiftRows
  | 0x7 => plainCommand v .invShiftRows
  | 0x8 => plainCommand v .mixColumns
  | 0x9 => plainCommand v .invMixColumns
  | 0xA => .addRoundKey (argField v)
  | 0xB => plainCommand v .gfMul
  | _ => .illegalCmd v

/-! ### The host transaction -/

/-- The transaction the port's signals name (R50, R77). DATA is no input of a read. -/
def decodeSignals (t : Txn) : Instr :=
  if t.w then .hostWrite t.off t.data else .hostRead t.off

/-- W in bit 17, OFF in bits 16:8, DATA in bits 7:0 (R77). -/
def txnOfWord (w : BitVec 18) : Txn :=
  ⟨w.getLsbD 17, w.extractLsb' 8 9, w.extractLsb' 0 8⟩

/-- The 18-bit word of a transaction's signals, `W<<17 | OFF<<8 | DATA` (R77). -/
def wordOfTxn (t : Txn) : BitVec 18 :=
  ((BitVec.ofBool t.w).setWidth 18 <<< 17) ||| (t.off.setWidth 18 <<< 8) ||| t.data.setWidth 18

/-- Why a word is no instruction. -/
inductive DecodeError where
  /-- A number that does not fit the row's format: no byte, or no 18-bit transaction word (R8, R18). -/
  | outOfWidth
  /-- W = 0 with DATA ≠ 0: DATA is "0 for a read" (R77; the table's mask 0x200FF). -/
  | readWithData
  deriving DecidableEq, Repr

/-- Decoding of a word in either format, total, rejecting by name. -/
def decode : TableWord → Except DecodeError Instr
  | .cmd8 b => .ok (decodeCommand b)
  | .txn18 w =>
    if (txnOfWord w).w = false ∧ (txnOfWord w).data ≠ 0 then .error .readWithData
    else .ok (decodeSignals (txnOfWord w))

/-- Decoding of a word given as a number: at most 8 bits is a command byte, more is a transaction
word. A number beyond the format's width is refused (R18). -/
def decodeNumber (nbits w : Nat) : Except DecodeError Instr :=
  if nbits ≤ 8 then
    if w < 2 ^ 8 then decode (.cmd8 (BitVec.ofNat 8 w)) else .error .outOfWidth
  else
    if w < 2 ^ 18 then decode (.txn18 (BitVec.ofNat 18 w)) else .error .outOfWidth

/-- The instruction the decoder reads from an opcode-table row's word (the host's fixed name). -/
def decodeTableWord (nbits w : Nat) : Option Instr :=
  match decodeNumber nbits w with
  | .ok i => some i
  | .error _ => none

/-! ### The encoder -/

/-- The port signals of a host transaction; a read carries DATA 0 (R77). -/
def signalsOf (write : Bool) (off : Offset) (v : Byte) : Txn :=
  ⟨write, off, if write then v else 0⟩

/-- The word of an instruction, from the fixed encodings of R80 and the transaction word of R77. -/
def encode : Instr → TableWord
  | .nop => .cmd8 0x00
  | .expandKey => .cmd8 0x01
  | .encrypt => .cmd8 0x02
  | .decrypt => .cmd8 0x03
  | .subBytes => .cmd8 0x04
  | .invSubBytes => .cmd8 0x05
  | .shiftRows => .cmd8 0x06
  | .invShiftRows => .cmd8 0x07
  | .mixColumns => .cmd8 0x08
  | .invMixColumns => .cmd8 0x09
  | .addRoundKey r => .cmd8 (commandByte r 0xA)
  | .gfMul => .cmd8 0x0B
  | .illegalCmd v => .cmd8 v
  | .hostWrite off v => .txn18 (wordOfTxn (signalsOf true off v))
  | .hostRead off => .txn18 (wordOfTxn (signalsOf false off 0))

/-! ### The table of fixed encodings (R80) -/

/-- One row of R80's table. -/
structure CommandRow where
  pattern : Byte
  mask : Byte
  deriving DecidableEq, Repr

/-- R80's test `v & mask == match`. -/
def CommandRow.matches (r : CommandRow) (v : Byte) : Bool := v &&& r.mask == r.pattern

/-- R80's rows, in its order: NOP, EXPAND_KEY, ENCRYPT, DECRYPT, SUB_BYTES, INV_SUB_BYTES,
SHIFT_ROWS, INV_SHIFT_ROWS, MIX_COLUMNS, INV_MIX_COLUMNS, ADD_ROUND_KEY, GF_MUL. -/
def commandRows : List CommandRow :=
  [⟨0x00, 0xFF⟩, ⟨0x01, 0xFF⟩, ⟨0x02, 0xFF⟩, ⟨0x03, 0xFF⟩, ⟨0x04, 0xFF⟩, ⟨0x05, 0xFF⟩,
   ⟨0x06, 0xFF⟩, ⟨0x07, 0xFF⟩, ⟨0x08, 0xFF⟩, ⟨0x09, 0xFF⟩, ⟨0x0A, 0x0F⟩, ⟨0x0B, 0xFF⟩]

/-- The index in `commandRows` of a command's row; none for an illegal command or a transaction. -/
def rowIndex : Instr → Option Nat
  | .nop => some 0
  | .expandKey => some 1
  | .encrypt => some 2
  | .decrypt => some 3
  | .subBytes => some 4
  | .invSubBytes => some 5
  | .shiftRows => some 6
  | .invShiftRows => some 7
  | .mixColumns => some 8
  | .invMixColumns => some 9
  | .addRoundKey _ => some 10
  | .gfMul => some 11
  | .illegalCmd _ => none
  | .hostWrite _ _ => none
  | .hostRead _ => none

/-- R80's decoding procedure: the index of the first row whose test a byte passes. -/
def scanRows (v : Byte) : Option Nat := commandRows.findIdx? (·.matches v)

end Sys2Proof
end

