-- ==== Sys2Proof/Machine/State.lean ====
section
/-! DEFINITION. The state of CLM-AES: the record of 10_state.md rule R21, field for field, and the
model's own two fields for the host port. Plain data; every field at its reset value in `reset`
(70_reset_and_hazards.md rule R230). -/

namespace Sys2Proof.Machine

/-- Why the machine stops with a fault. It has no constructor: "No host transaction faults" and a
model has "no fault outcome" (R18), and the engine has no trap (R200). Nothing raises a fault. -/
inductive Fault where
  deriving DecidableEq, Repr

/-- Why the model refuses to run an instruction. -/
inductive Refusal where
  /-- The instruction has no meaning yet. Raised only by a refused arm of `exec`; no arm is refused
  now, so nothing raises it. Safe: a run that reached it would stop. -/
  | notModelled (mnemonic : String)
  deriving DecidableEq, Repr

/-- The engine's complete state, R21's record. STATUS is not stored; it is computed from `err` and
`keyValid`. -/
structure Engine where
  /-- CMD: the last byte written to offset 0x000 (R22). -/
  cmd : Byte
  /-- STATUS.ERR: the result code of the last command (R23, R32). -/
  err : BitVec 3
  /-- STATUS.KEY_VALID (R23, R30). -/
  keyValid : Bool
  /-- KEYLEN: the raw key length as written (R24). -/
  keylen : Byte
  /-- NR: the rounds of the last successful key expansion, or 0 (R25). -/
  nr : Byte
  /-- GFA: the multiplicand (R29). -/
  gfa : Byte
  /-- GFB: the multiplier (R29). -/
  gfb : Byte
  /-- GFR: the last product (R29). -/
  gfr : Byte
  /-- STATE[0..15] (R26). -/
  state : Block
  /-- KEY[0..31] (R27). -/
  key : KeyBytes
  /-- RK[0..239] (R28). -/
  rk : RoundKeys
  deriving DecidableEq, Repr

/-- Every register at its reset value (R230). -/
def Engine.reset : Engine where
  cmd := 0x00
  err := 0
  keyValid := false
  keylen := 0x00
  nr := 0x00
  gfa := 0x00
  gfb := 0x00
  gfr := 0x00
  state := Vector.replicate 16 0x00
  key := Vector.replicate 32 0x00
  rk := Vector.replicate 240 0x00

/-- The machine: the engine, and the host's side of the port. -/
structure State where
  /-- The engine's registers (R20, R21). -/
  engine : Engine
  /-- The model's own field: what the host will still do, oldest first, in issue order (R17, R59).
  DESIGN CHOICE, notes/assumptions/1.md. -/
  pending : List PortInput
  /-- The model's own field: the bytes returned by HostRead so far, oldest first. This is a run's
  observation (R17). DESIGN CHOICE, notes/assumptions/1.md. -/
  returned : List Byte
  deriving DecidableEq, Repr

/-- The machine right after reset: the engine at R230's values, no transaction issued or answered. -/
def State.reset : State where
  engine := Engine.reset
  pending := []
  returned := []

end Sys2Proof.Machine
end

