-- ==== Sys2Proof/Machine/Flags.lean ====
section
/-! DEFINITION. STATUS and its two fields: the result code ERR and KEY_VALID
(10_state.md rules R23, R30, R32; 60_exceptions.md rule R201). These are the engine's only flags. -/

namespace Sys2Proof.Machine

/-- The failures a command can report (R201). -/
inductive CmdError where
  /-- KEYLEN ∉ {16, 24, 32}: EXPAND_KEY. -/
  | keyLength
  /-- KEY_VALID = 0: ENCRYPT, DECRYPT, ADD_ROUND_KEY. -/
  | noKey
  /-- ARG > NR: ADD_ROUND_KEY. -/
  | roundRange
  /-- A byte of the illegal space: any command byte. -/
  | illegalCmd
  deriving DecidableEq, Repr

/-- The code a failure writes to STATUS.ERR (R201). 0 is OK; 5 to 7 are never written. -/
def CmdError.code : CmdError → BitVec 3
  | .keyLength => 1
  | .noKey => 2
  | .roundRange => 3
  | .illegalCmd => 4

/-- STATUS as one byte: `zext_8(keyValid) << 3 | zext_8(err)` (R21, R23); bits 7:4 read 0. -/
def statusByte (keyValid : Bool) (err : BitVec 3) : Byte :=
  ((BitVec.ofBool keyValid).setWidth 8 <<< 3) ||| err.setWidth 8

/-- What a host reads at STATUS. -/
def Engine.status (e : Engine) : Byte := statusByte e.keyValid e.err

/-- `ok`: STATUS.ERR <- 0 (R12). -/
def Engine.ok (e : Engine) : Engine := { e with err := 0 }

/-- The state part of `raise CmdError(code)`: STATUS.ERR <- code, nothing else (R12, R200). -/
def Engine.raise (c : CmdError) (e : Engine) : Engine := { e with err := c.code }

/-- KEY_VALID <- 0 (R30). -/
def Engine.clearKeyValid (e : Engine) : Engine := { e with keyValid := false }

/-- KEY_VALID <- 1 (R30). -/
def Engine.setKeyValid (e : Engine) : Engine := { e with keyValid := true }

end Sys2Proof.Machine
end

