-- ==== Sys2Proof/Machine/Operands.lean ====
section
/-! DEFINITION. What an offset, a round index and a key length select: the address map
(20_memory.md rule R52), the round index of ADD_ROUND_KEY (30_encoding.md rule R75) and the key-size
parameters (41_key_schedule.md rule R125). -/

namespace Sys2Proof.Machine

/-- The register byte an offset names (R52). -/
inductive Reg where
  | cmd
  | status
  | keylen
  | nr
  | gfa
  | gfb
  | gfr
  | state (k : Fin 16)
  | key (k : Fin 32)
  | rk (j : Fin 240)
  | reserved
  deriving DecidableEq, Repr

/-- The address map, row by row (R52). -/
def selectReg (off : Offset) : Reg :=
  if off.toNat = 0x000 then .cmd
  else if off.toNat = 0x001 then .status
  else if off.toNat = 0x002 then .keylen
  else if off.toNat = 0x003 then .nr
  else if off.toNat = 0x004 then .gfa
  else if off.toNat = 0x005 then .gfb
  else if off.toNat = 0x006 then .gfr
  else if h : 0x010 ≤ off.toNat ∧ off.toNat < 0x020 then .state ⟨off.toNat - 0x010, by omega⟩
  else if h : 0x020 ≤ off.toNat ∧ off.toNat < 0x040 then .key ⟨off.toNat - 0x020, by omega⟩
  else if h : 0x100 ≤ off.toNat ∧ off.toNat < 0x1F0 then .rk ⟨off.toNat - 0x100, by omega⟩
  else .reserved

/-- The round index `r = zext_8(ARG)`: unsigned, 0 to 15, neither scaled nor sign-extended (R75). -/
def roundIndex (arg : BitVec 4) : Byte := arg.setWidth 8

/-- KEYLEN is one of 16, 24 and 32 (R7, R122). -/
def legalKeyLength (keylen : Byte) : Bool := Config.keyLengths.contains keylen.toNat

/-- Nk, the key length in words (R7, R122). -/
def nkOf (keylen : Byte) : Nat := keylen.toNat / 4

/-- Nr = Nk + 6 (R7, R123). -/
def nrOf (nk : Nat) : Nat := nk + 6

end Sys2Proof.Machine
end

