-- ==== Sys2Proof/Machine/Ops.lean ====
section
/-! DEFINITION. The operations every meaning is built from: reading and writing a register byte
(20_memory.md rules R51 to R53), finishing a command and reporting a failure (00_scope.md rule R12,
60_exceptions.md rule R200), the key check (R30), the reset input (70_reset_and_hazards.md rule R230)
and the host's side of the port (R17, R50). -/

namespace Sys2Proof.Machine

/-- The outcome of one instruction or one step. -/
abbrev Result := Host.Outcome State Fault Refusal

/-! ### Register bytes -/

/-- `byte_at(off)`: what a host reads at an offset (R51, R52). Reserved offsets read 0x00 (R53). -/
def Engine.byteAt (e : Engine) (off : Offset) : Byte :=
  match selectReg off with
  | .cmd => e.cmd
  | .status => e.status
  | .keylen => e.keylen
  | .nr => e.nr
  | .gfa => e.gfa
  | .gfb => e.gfb
  | .gfr => e.gfr
  | .state k => e.state[k]
  | .key k => e.key[k]
  | .rk j => e.rk[j]
  | .reserved => 0x00

/-- What a host write stores, and the clearing of KEY_VALID that a KEYLEN or KEY write brings (R51,
R52, R30). At CMD it stores the byte only; executing it is `execHostWrite`'s. A write to a read-only
register or a reserved offset changes nothing (R53). -/
def Engine.storeByte (off : Offset) (v : Byte) (e : Engine) : Engine :=
  match selectReg off with
  | .cmd => { e with cmd := v }
  | .keylen => { e with keylen := v }.clearKeyValid
  | .gfa => { e with gfa := v }
  | .gfb => { e with gfb := v }
  | .state k => { e with state := e.state.set k v }
  | .key k => { e with key := e.key.set k v }.clearKeyValid
  | .status => e
  | .nr => e
  | .gfr => e
  | .rk _ => e
  | .reserved => e

/-- Byte `j` of RK. RK has 240 bytes; an index beyond them, which no reachable state asks for,
reads 0x00. DESIGN CHOICE, notes/assumptions/6.md. -/
def roundKeyByte (rk : RoundKeys) (j : Nat) : Byte := rk[j]?.getD 0x00

/-! ### Ends of a command -/

/-- The machine with its engine replaced. -/
def State.withEngine (s : State) (e : Engine) : State := { s with engine := e }

/-- A command that succeeds: the engine holds its result and ERR <- 0 (R12's `ok`). -/
def finishOk (e : Engine) (s : State) : Result := .next (s.withEngine e.ok)

/-- `raise CmdError(code)`: the one way a command fails (R12, R200, R206). ERR records the code, no
other register changes beyond what `e` already holds, and the machine goes on: there is no trap, no
saved context and no transfer of control. -/
def raiseCmdError (c : CmdError) (e : Engine) (s : State) : Result := .next (s.withEngine (e.raise c))

/-- The check shared by the keyed commands: NO_KEY when KEY_VALID = 0 (R30, R101, R102, R149). -/
def requireKey (s : State) (run : Result) : Result :=
  if s.engine.keyValid then run else raiseCmdError .noKey s.engine s

/-- A block command: STATE is transformed in place (R26) and the command succeeds. -/
def transformState (f : Block → Block) (s : State) : Result :=
  finishOk { s.engine with state := f s.engine.state } s

/-! ### The host's side of the port -/

/-- The reset input: every engine register takes its reset value (R230). The host's own side, what it
will still do and what it has read, is not the engine's. DESIGN CHOICE, notes/assumptions/9.md. -/
def State.assertReset (s : State) : State := s.withEngine Engine.reset

/-- The next event on the port is taken; what the host does after it stays. -/
def State.consume (s : State) (rest : List PortInput) : State := { s with pending := rest }

/-- A byte is returned to the host (R17). -/
def State.answer (s : State) (v : Byte) : State := { s with returned := s.returned ++ [v] }

/-- The machine with the event placed before everything the host will still do. -/
def State.place (s : State) (i : PortInput) : State := { s with pending := i :: s.pending }

/-- The signals a host drives to issue a command: HostWrite(0x000, v) (R22, R70). -/
def commandTxn (v : Byte) : Txn := signalsOf true 0x000 v

end Sys2Proof.Machine
end

