-- ==== Sys2Proof/Machine/GfMultiply.lean ====
section
/-! DEFINITION. GF(2^8) arithmetic and the GF_MUL command (44_gf_multiply.md). -/

namespace Sys2Proof.Machine

/-- Multiplication by x in GF(2^8): "reduction by XOR 0x1B whenever the top bit overflows" (R180). -/
def xtime (a : Byte) : Byte := if a.getLsbD 7 then (a <<< 1) ^^^ 0x1B else a <<< 1

/-- The loop of R181, `n` iterations left: `p` accumulates, `a` is doubled, `b` shifted right. -/
def gmulLoop : Nat → Byte → Byte → Byte → Byte
  | 0, p, _, _ => p
  | n + 1, p, a, b => gmulLoop n (if b.getLsbD 0 then p ^^^ a else p) (xtime a) (b >>> 1)

/-- Multiplication in GF(2^8): eight iterations from `p = 0` (R181). -/
def gmul (a b : Byte) : Byte := gmulLoop 8 0x00 a b

/-! ### The other order R181 names: the whole carry-less product, reduced at the end -/

/-- The sum, over the set bits `i < n` of `b`, of `a` shifted left by `i`: the carry-less product, at
most 15 bits (R181). -/
def carrylessProduct (a b : Byte) : Nat → BitVec 15
  | 0 => 0
  | n + 1 => carrylessProduct a b n ^^^ (if b.getLsbD n then a.setWidth 15 <<< n else 0)

/-- Reduction modulo x^8 + x^4 + x^3 + x + 1 (0x11B) of a polynomial of degree below `n + 8`, from the
top coefficient down (R15). -/
def reducePoly : Nat → BitVec 15 → BitVec 15
  | 0, p => p
  | n + 1, p => reducePoly n (if p.getLsbD (n + 8) then p ^^^ (0x11B#15 <<< n) else p)

/-- The product of the polynomials of `a` and `b`, reduced modulo 0x11B (R15, R182). -/
def polyProduct (a b : Byte) : Byte := (reducePoly 7 (carrylessProduct a b 8)).setWidth 8

/-- GF_MUL: GFR <- gmul(GFA, GFB) (R183). -/
def execGfMul (s : State) : Result :=
  finishOk { s.engine with gfr := gmul s.engine.gfa s.engine.gfb } s

end Sys2Proof.Machine
end

