-- ==== Sys2Proof/Machine/RoundTransforms.lean ====
section
/-! DEFINITION. SubBytes, ShiftRows, MixColumns and AddRoundKey, as functions on a block and as
commands on STATE (42_round_transforms.md). -/

namespace Sys2Proof.Machine

/-! ### The state matrix (00_scope.md rule R14) -/

/-- Column `c` of a block: the word `(b[4c], b[4c+1], b[4c+2], b[4c+3])` (R14). -/
def column (b : Block) (c : Fin 4) : Word :=
  ⟨b[4 * c.val], b[4 * c.val + 1], b[4 * c.val + 2], b[4 * c.val + 3]⟩

/-- The block whose column `c` is `f c`: byte `k` is row `k mod 4` of column `k div 4` (R14). -/
def ofColumns (f : Fin 4 → Word) : Block :=
  Vector.ofFn fun k => (f ⟨k.val / 4, by omega⟩).byte (k.val % 4)

/-! ### The functions -/

/-- SubBytes (R140). -/
def subBytes (b : Block) : Block := Vector.ofFn fun k => sbox b[k]

/-- Where ShiftRows takes output byte `k = 4c + r` from: input byte `4((c + r) mod 4) + r` (R143). -/
def shiftSource (k : Fin 16) : Fin 16 :=
  ⟨4 * ((k.val / 4 + k.val % 4) % 4) + k.val % 4, by omega⟩

/-- ShiftRows (R143). -/
def shiftRows (b : Block) : Block := Vector.ofFn fun k => b[shiftSource k]

/-- A 4×4 matrix over GF(2^8), by rows. -/
structure Matrix4 where
  r0 : Word
  r1 : Word
  r2 : Word
  r3 : Word
  deriving DecidableEq, Repr

/-- The XOR over k = 0..3 of `gmul(m[k], s[k])` (R146). -/
def rowTimesColumn (m s : Word) : Byte :=
  gmul m.a0 s.a0 ^^^ gmul m.a1 s.a1 ^^^ gmul m.a2 s.a2 ^^^ gmul m.a3 s.a3

/-- A matrix times a column over GF(2^8) (R146, R165). -/
def matrixTimesColumn (m : Matrix4) (s : Word) : Word :=
  ⟨rowTimesColumn m.r0 s, rowTimesColumn m.r1 s, rowTimesColumn m.r2 s, rowTimesColumn m.r3 s⟩

/-- The matrix M of MixColumns (R146). -/
def mixMatrix : Matrix4 where
  r0 := ⟨0x02, 0x03, 0x01, 0x01⟩
  r1 := ⟨0x01, 0x02, 0x03, 0x01⟩
  r2 := ⟨0x01, 0x01, 0x02, 0x03⟩
  r3 := ⟨0x03, 0x01, 0x01, 0x02⟩

/-- MixColumns: each column is multiplied by M (R146). -/
def mixColumns (b : Block) : Block := ofColumns fun c => matrixTimesColumn mixMatrix (column b c)

/-- AddRoundKey: byte `k` is XORed with RK[16r + k] (R148). -/
def addRoundKey (b : Block) (rk : RoundKeys) (r : Nat) : Block :=
  Vector.ofFn fun k => b[k] ^^^ roundKeyByte rk (16 * r + k.val)

/-! ### The commands -/

/-- SUB_BYTES (R142). -/
def execSubBytes (s : State) : Result := transformState subBytes s

/-- SHIFT_ROWS (R144). -/
def execShiftRows (s : State) : Result := transformState shiftRows s

/-- MIX_COLUMNS (R147). -/
def execMixColumns (s : State) : Result := transformState mixColumns s

/-- ADD_ROUND_KEY r: NO_KEY, then ROUND_RANGE when r > NR, else the XOR (R149, R203). -/
def execAddRoundKey (arg : BitVec 4) (s : State) : Result :=
  requireKey s
    (if s.engine.nr < roundIndex arg then raiseCmdError .roundRange s.engine s
     else transformState (fun b => addRoundKey b s.engine.rk (roundIndex arg).toNat) s)

end Sys2Proof.Machine
end

