-- ==== Sys2Proof/Machine/InverseTransforms.lean ====
section
/-! DEFINITION. InvSubBytes, InvShiftRows and InvMixColumns, as functions on a block and as commands
on STATE (43_inverse_transforms.md). -/

namespace Sys2Proof.Machine

/-- InvSubBytes (R160). -/
def invSubBytes (b : Block) : Block := Vector.ofFn fun k => invSbox b[k]

/-- Where InvShiftRows takes output byte `k = 4c + r` from: input byte `4((c − r) mod 4) + r` (R162). -/
def invShiftSource (k : Fin 16) : Fin 16 :=
  ⟨4 * ((k.val / 4 + 4 - k.val % 4) % 4) + k.val % 4, by omega⟩

/-- InvShiftRows (R162). -/
def invShiftRows (b : Block) : Block := Vector.ofFn fun k => b[invShiftSource k]

/-- The matrix M' of InvMixColumns (R165). -/
def invMixMatrix : Matrix4 where
  r0 := ⟨0x0e, 0x0b, 0x0d, 0x09⟩
  r1 := ⟨0x09, 0x0e, 0x0b, 0x0d⟩
  r2 := ⟨0x0d, 0x09, 0x0e, 0x0b⟩
  r3 := ⟨0x0b, 0x0d, 0x09, 0x0e⟩

/-- InvMixColumns: each column is multiplied by M' (R165). -/
def invMixColumns (b : Block) : Block :=
  ofColumns fun c => matrixTimesColumn invMixMatrix (column b c)

/-- INV_SUB_BYTES (R161). -/
def execInvSubBytes (s : State) : Result := transformState invSubBytes s

/-- INV_SHIFT_ROWS (R163). -/
def execInvShiftRows (s : State) : Result := transformState invShiftRows s

/-- INV_MIX_COLUMNS (R166). -/
def execInvMixColumns (s : State) : Result := transformState invMixColumns s

end Sys2Proof.Machine
end

