-- ==== Sys2Proof/Machine/KeySchedule.lean ====
section
/-! DEFINITION. The key schedule and the EXPAND_KEY command (41_key_schedule.md). -/

namespace Sys2Proof.Machine

/-- RotWord: byte 0 moves to the end (R120). -/
def rotWord (w : Word) : Word := ⟨w.a1, w.a2, w.a3, w.a0⟩

/-- SubWord: the S-box on each byte (R120). -/
def subWord (w : Word) : Word := ⟨sbox w.a0, sbox w.a1, sbox w.a2, sbox w.a3⟩

/-- Rcon[j]: Rcon[1] = 0x01, each next one doubled (R121). The spec defines no Rcon[0] and no rule
uses one (R126); it is 0x00 here. DESIGN CHOICE, notes/assumptions/7.md. -/
def rcon : Nat → Byte
  | 0 => 0x00
  | 1 => 0x01
  | j + 2 => xtime (rcon (j + 1))

/-- The round constant as a word: XORed into byte 0 only (R121). -/
def rconWord (j : Nat) : Word := ⟨rcon j, 0x00, 0x00, 0x00⟩

/-- Word `i` of the raw key: `(K[4i], K[4i+1], K[4i+2], K[4i+3])` (R123). -/
def keyWord (k : List Byte) (i : Nat) : Word :=
  ⟨k.getD (4 * i) 0, k.getD (4 * i + 1) 0, k.getD (4 * i + 2) 0, k.getD (4 * i + 3) 0⟩

/-- What word `i`'s predecessor `t = w[i-1]` becomes before it is XORed into `w[i-Nk]` (R123). -/
def scheduleTemp (nk i : Nat) (t : Word) : Word :=
  if i % nk = 0 then (subWord (rotWord t)).xor (rconWord (i / nk))
  else if nk = 8 ∧ i % nk = 4 then subWord t
  else t

/-- Word `i` of the schedule, from the words before it: `w[i-Nk] ^ t` (R123). -/
def nextWord (nk : Nat) (w : List Word) (i : Nat) : Word :=
  (w.getD (i - nk) .zero).xor (scheduleTemp nk i (w.getD (i - 1) .zero))

/-- KeyExpansion: the first Nk words are the raw key, the rest follow one by one up to word
4(Nr + 1) − 1 (R123). -/
def keyExpansion (nk : Nat) (k : List Byte) : List Word :=
  (List.range' nk (4 * (nrOf nk + 1) - nk)).foldl (fun w i => w ++ [nextWord nk w i])
    ((List.range nk).map (keyWord k))

/-- The 240 bytes of RK: word `i` at RK[4i .. 4i+3], and 0x00 past round key NR (R122, R124). -/
def layoutRoundKeys (nk : Nat) (w : List Word) : RoundKeys :=
  Vector.ofFn fun j =>
    if j.val < 16 * (nk + 7) then (w.getD (j.val / 4) .zero).byte (j.val % 4) else 0x00

/-- The ExpandedKey of the raw key KEY[0 .. KEYLEN−1] (R122, R124). -/
def expandedKey (keylen : Byte) (key : KeyBytes) : RoundKeys :=
  layoutRoundKeys (nkOf keylen) (keyExpansion (nkOf keylen) (key.toList.take keylen.toNat))

/-- The registers a successful EXPAND_KEY writes: RK, NR and KEY_VALID (R122). -/
def Engine.installKey (e : Engine) : Engine :=
  { e with
    rk := expandedKey e.keylen e.key
    nr := BitVec.ofNat 8 (nrOf (nkOf e.keylen)) }.setKeyValid

/-- EXPAND_KEY: KEY_LENGTH, with KEY_VALID <- 0, when KEYLEN is illegal; else the expansion (R122). -/
def execExpandKey (s : State) : Result :=
  if legalKeyLength s.engine.keylen then finishOk s.engine.installKey s
  else raiseCmdError .keyLength s.engine.clearKeyValid s

end Sys2Proof.Machine
end

