-- ==== Sys2Proof/Machine/BlockCipher.lean ====
section
/-! DEFINITION. The cipher and its inverse, and the NOP, ENCRYPT and DECRYPT commands
(40_block_cipher.md); the illegal command space (30_encoding.md rule R74). -/

namespace Sys2Proof.Machine

/-- One full round of Cipher (R103). -/
def cipherRound (rk : RoundKeys) (s : Block) (round : Nat) : Block :=
  addRoundKey (mixColumns (shiftRows (subBytes s))) rk round

/-- Cipher: the initial key addition, rounds 1 .. Nr−1, and a final round without MixColumns (R103). -/
def cipher (b : Block) (nr : Nat) (rk : RoundKeys) : Block :=
  addRoundKey
    (shiftRows (subBytes ((List.range' 1 (nr - 1)).foldl (cipherRound rk) (addRoundKey b rk 0))))
    rk nr

/-- One iteration of InvCipher's loop (R104). -/
def invCipherRound (rk : RoundKeys) (s : Block) (round : Nat) : Block :=
  invSubBytes (invShiftRows (invMixColumns (addRoundKey s rk round)))

/-- InvCipher: the final round undone, rounds Nr−1 downto 1 undone, the initial key addition undone
(R104). -/
def invCipher (b : Block) (nr : Nat) (rk : RoundKeys) : Block :=
  addRoundKey
    ((List.range' 1 (nr - 1)).reverse.foldl (invCipherRound rk)
      (invSubBytes (invShiftRows (addRoundKey b rk nr))))
    rk 0

/-- NOP: ERR <- 0 (R100). -/
def execNop (s : State) : Result := finishOk s.engine s

/-- ENCRYPT: STATE <- Cipher(STATE, NR, RK) when KEY_VALID = 1, else NO_KEY (R101). -/
def execEncrypt (s : State) : Result :=
  requireKey s (transformState (fun b => cipher b s.engine.nr.toNat s.engine.rk) s)

/-- DECRYPT: STATE <- InvCipher(STATE, NR, RK) when KEY_VALID = 1, else NO_KEY (R102). -/
def execDecrypt (s : State) : Result :=
  requireKey s (transformState (fun b => invCipher b s.engine.nr.toNat s.engine.rk) s)

/-- An illegal command byte: ILLEGAL_CMD, whatever the byte is (R73, R74). -/
def execIllegalCmd (_v : Byte) (s : State) : Result := raiseCmdError .illegalCmd s.engine s

end Sys2Proof.Machine
end

