-- ==== Sys2Proof/Machine/HostPort.lean ====
section
/-! DEFINITION. The host transactions (20_memory.md rule R51) and the execution of a command byte
within the write that issues it (30_encoding.md rule R70). -/

namespace Sys2Proof.Machine

/-- Execute(v): the command a byte names runs (R70). The decoder answers no host transaction for a
command byte, so the last two arms are never taken (`decodeCommand_isCommand`). -/
def executeCommand (v : Byte) (s : State) : Result :=
  match decodeCommand v with
  | .nop => execNop s
  | .expandKey => execExpandKey s
  | .encrypt => execEncrypt s
  | .decrypt => execDecrypt s
  | .subBytes => execSubBytes s
  | .invSubBytes => execInvSubBytes s
  | .shiftRows => execShiftRows s
  | .invShiftRows => execInvShiftRows s
  | .mixColumns => execMixColumns s
  | .invMixColumns => execInvMixColumns s
  | .addRoundKey r => execAddRoundKey r s
  | .gfMul => execGfMul s
  | .illegalCmd b => execIllegalCmd b s
  | .hostWrite _ _ => execIllegalCmd v s
  | .hostRead _ => execIllegalCmd v s

/-- HostWrite(off, v): the byte is stored where the map says, and at CMD it is then executed, in the
same step (R51, R58, R70). -/
def execHostWrite (off : Offset) (v : Byte) (s : State) : Result :=
  if off = 0x000 then executeCommand v (s.withEngine (s.engine.storeByte off v))
  else .next (s.withEngine (s.engine.storeByte off v))

/-- HostRead(off): the byte is returned and no register changes (R51, R57). -/
def execHostRead (off : Offset) (s : State) : Result := .next (s.answer (s.engine.byteAt off))

end Sys2Proof.Machine
end

