-- ==== Sys2Proof/Machine/Dispatch.lean ====
section
/-! DEFINITION. One arm per instruction: its meaning. A command's arm is what Execute does for it
(30_encoding.md rule R70), in a state where CMD already holds the byte. -/

namespace Sys2Proof.Machine

def exec (i : Instr) (s : State) : Host.Outcome State Fault Refusal :=
  match i with
  | .nop => Sys2Proof.Machine.execNop s
  | .expandKey => Sys2Proof.Machine.execExpandKey s
  | .encrypt => Sys2Proof.Machine.execEncrypt s
  | .decrypt => Sys2Proof.Machine.execDecrypt s
  | .subBytes => Sys2Proof.Machine.execSubBytes s
  | .invSubBytes => Sys2Proof.Machine.execInvSubBytes s
  | .shiftRows => Sys2Proof.Machine.execShiftRows s
  | .invShiftRows => Sys2Proof.Machine.execInvShiftRows s
  | .mixColumns => Sys2Proof.Machine.execMixColumns s
  | .invMixColumns => Sys2Proof.Machine.execInvMixColumns s
  | .addRoundKey r => Sys2Proof.Machine.execAddRoundKey r s
  | .gfMul => Sys2Proof.Machine.execGfMul s
  | .illegalCmd v => Sys2Proof.Machine.execIllegalCmd v s
  | .hostWrite off v => Sys2Proof.Machine.execHostWrite off v s
  | .hostRead off => Sys2Proof.Machine.execHostRead off s

end Sys2Proof.Machine
end

