-- ==== Sys2Proof/Machine/Step.lean ====
section
/-! DEFINITION. One step of the machine: the next event on the host port takes effect, in issue order
(00_scope.md rule R17, 20_memory.md rule R59). -/

namespace Sys2Proof.Machine

/-- One step. With no event the engine is idle and holds all state (R214). A reset event sets every
register (R230). A transaction is decoded from the port's signals and executed, atomically (R58). -/
def step (s : State) : Host.Outcome State Fault Refusal :=
  match s.pending with
  | [] => .next s
  | .reset :: rest => .next (s.consume rest).assertReset
  | .txn t :: rest => exec (decodeSignals t) (s.consume rest)

/-- The state with an opcode-table row's word placed where `step` takes its next event, before what
the host will still do: a command byte as the CMD write that issues it (R70), a transaction word as
its signals (R77). -/
def State.withFetchWord (s : State) (nbits w : Nat) : State :=
  if nbits ≤ 8 then s.place (.txn (commandTxn (BitVec.ofNat 8 w)))
  else s.place (.txn (txnOfWord (BitVec.ofNat 18 w)))

end Sys2Proof.Machine
end

