-- ==== Sys2Proof/Machine/HostProgram.lean ====
section
/-! DEFINITION. Host programs: the lines and pseudo-instructions of 30_encoding.md rules R78 and R79,
their expansion into transactions, and how a program comes to stand on the host port. This is test
notation: the engine never sees it (R77, D21). -/

namespace Sys2Proof.Machine

/-- One line of a host program (R78, R79). -/
inductive HostLine where
  /-- `wr OFF, V` -/
  | wr (off : Offset) (v : Byte)
  /-- `rd OFF` -/
  | rd (off : Offset)
  /-- `rd OFF -> V` -/
  | rdIs (off : Offset) (v : Byte)
  /-- `cmd MNEMONIC` and `cmd ADD_ROUND_KEY r` -/
  | cmd (i : Instr)
  /-- `cmd 0xNN` -/
  | cmdByte (v : Byte)
  /-- `ldstate B` -/
  | ldstate (b : Block)
  /-- `rdstate` -/
  | rdstate
  /-- `rdstate -> B` -/
  | rdstateIs (b : Block)
  /-- `ldkey K`, K of 1 to 32 bytes -/
  | ldkey (k : List Byte)
  /-- `rdstatus -> V` -/
  | rdstatusIs (v : Byte)
  /-- `rdrk r` -/
  | rdrk (r : BitVec 4)
  /-- `rdrk r -> B` -/
  | rdrkIs (r : BitVec 4) (b : Block)
  /-- `gfmul A, B` -/
  | gfmul (a b : Byte)
  deriving DecidableEq, Repr

/-- A transaction and the byte the program states for it, if it states one. -/
structure ProgramTxn where
  txn : Txn
  expected : Option Byte
  deriving DecidableEq, Repr

/-- `wr` (R78). -/
def wrTxn (off : Offset) (v : Byte) : ProgramTxn := ⟨signalsOf true off v, none⟩

/-- `rd`, with the stated result if there is one (R78). -/
def rdTxn (off : Offset) (v : Option Byte) : ProgramTxn := ⟨signalsOf false off 0, v⟩

/-- The offset `base + k`. -/
def offsetAt (base k : Nat) : Offset := BitVec.ofNat 9 (base + k)

/-- Writes of consecutive bytes from `base`, in rising order (R79). -/
def writeBytes (base : Nat) (bs : List Byte) : List ProgramTxn :=
  bs.mapIdx fun k v => wrTxn (offsetAt base k) v

/-- Reads of consecutive bytes from `base`, in rising order, each with its stated result (R79). -/
def readBytes (base : Nat) (expected : List (Option Byte)) : List ProgramTxn :=
  expected.mapIdx fun k v => rdTxn (offsetAt base k) v

/-- Sixteen reads with no stated result. -/
def anyBlock : List (Option Byte) := List.replicate 16 none

/-- The command byte of a command (R72); a host transaction names none, and `HostLine.wf` keeps it out. -/
def commandByteOf (i : Instr) : Byte :=
  match encode i with
  | .cmd8 b => b
  | .txn18 _ => 0

/-- `cmd` (R78). -/
def cmdTxn (v : Byte) : ProgramTxn := wrTxn 0x000 v

/-- The expansion of a line (R78, R79). -/
def HostLine.expand : HostLine → List ProgramTxn
  | .wr off v => [wrTxn off v]
  | .rd off => [rdTxn off none]
  | .rdIs off v => [rdTxn off (some v)]
  | .cmd i => [cmdTxn (commandByteOf i)]
  | .cmdByte v => [cmdTxn v]
  | .ldstate b => writeBytes 0x010 b.toList
  | .rdstate => readBytes 0x010 anyBlock
  | .rdstateIs b => readBytes 0x010 (b.toList.map some)
  | .ldkey k => wrTxn 0x002 (BitVec.ofNat 8 k.length) :: writeBytes 0x020 k
  | .rdstatusIs v => [rdTxn 0x001 (some v)]
  | .rdrk r => readBytes (0x100 + 16 * r.toNat) anyBlock
  | .rdrkIs r b => readBytes (0x100 + 16 * r.toNat) (b.toList.map some)
  | .gfmul a b => [wrTxn 0x004 a, wrTxn 0x005 b, cmdTxn (commandByteOf .gfMul)]

/-- What R78 and R79 ask of a line beyond its types: `cmd MNEMONIC` names a legal command, and
`ldkey` has 1 to 32 bytes. -/
def HostLine.wf : HostLine → Bool
  | .cmd i => i.isCommand && i.wf && (rowIndex i).isSome
  | .ldkey k => decide (1 ≤ k.length ∧ k.length ≤ 32)
  | .wr _ _ => true
  | .rd _ => true
  | .rdIs _ _ => true
  | .cmdByte _ => true
  | .ldstate _ => true
  | .rdstate => true
  | .rdstateIs _ => true
  | .rdstatusIs _ => true
  | .rdrk _ => true
  | .rdrkIs _ _ => true
  | .gfmul _ _ => true

/-- A program's transactions, in issue order. -/
def expandProgram (p : List HostLine) : List ProgramTxn := p.flatMap HostLine.expand

/-- A program's transaction words (R77). -/
def programWords (p : List HostLine) : List (BitVec 18) :=
  (expandProgram p).map fun t => wordOfTxn t.txn

/-- The host will issue the program's transactions after everything it already will do. -/
def State.load (p : List HostLine) (s : State) : State :=
  { s with pending := s.pending ++ (expandProgram p).map fun t => .txn t.txn }

/-- What a program states for each byte its reads return, in order. -/
def expectedReads (p : List HostLine) : List (Option Byte) :=
  ((expandProgram p).filter fun t => !t.txn.w).map ProgramTxn.expected

/-- The returned bytes are as many as the reads, and each stated one is as stated (R78). -/
def readsAgree : List (Option Byte) → List Byte → Bool
  | [], [] => true
  | none :: es, _ :: vs => readsAgree es vs
  | some e :: es, v :: vs => e == v && readsAgree es vs
  | [], _ :: _ => false
  | _ :: _, [] => false

end Sys2Proof.Machine
end

