-- ==== Sys2Proof/Machine/HostSyntax.lean ====
section
/-! DEFINITION. The text form of a host program line (30_encoding.md rules R78, R79), read from a
list of characters. Test notation only (D21). The spec fixes neither blanks nor letter case: DESIGN
CHOICE, notes/assumptions/13.md. -/

namespace Sys2Proof.Machine

/-- Why a line is refused. -/
inductive SyntaxError where
  /-- The words are no line of R78 or R79. -/
  | unknownLine
  /-- Not a number of R78: `0x` and hex digits, or decimal digits. -/
  | badNumber
  /-- An offset at or above 0x200: a transaction that cannot be spelled (R18). -/
  | offsetTooLarge
  /-- A data value above 0xFF: a transaction that cannot be spelled (R18). -/
  | dataTooLarge
  /-- A round index above 15 (R78, R79). -/
  | indexTooLarge
  /-- Not a hex byte string of the length the line needs (R79). -/
  | badHexString
  deriving DecidableEq, Repr

/-- The value of a digit in a base up to 16. -/
def digitValue (base : Nat) (c : Char) : Option Nat :=
  let n := c.toNat
  let d :=
    if 48 ≤ n ∧ n ≤ 57 then n - 48
    else if 97 ≤ n ∧ n ≤ 102 then n - 87
    else if 65 ≤ n ∧ n ≤ 70 then n - 55
    else base
  if d < base then some d else none

/-- The value of a digit string, most significant first, continuing from `acc`. -/
def digitsValue (base : Nat) : Nat → List Char → Option Nat
  | acc, [] => some acc
  | acc, c :: cs => (digitValue base c).bind fun d => digitsValue base (acc * base + d) cs

/-- A number: hex with a `0x` prefix, or decimal without one (R78). -/
def parseNumber : List Char → Except SyntaxError Nat
  | '0' :: 'x' :: c :: cs => ((digitsValue 16 0 (c :: cs)).elim (.error .badNumber) .ok)
  | c :: cs => ((digitsValue 10 0 (c :: cs)).elim (.error .badNumber) .ok)
  | [] => .error .badNumber

/-- An offset, below 0x200 (R18). -/
def parseOffset (cs : List Char) : Except SyntaxError Offset :=
  (parseNumber cs).bind fun n =>
    if n < 0x200 then .ok (BitVec.ofNat 9 n) else .error .offsetTooLarge

/-- A data byte, at most 0xFF (R18). -/
def parseData (cs : List Char) : Except SyntaxError Byte :=
  (parseNumber cs).bind fun n =>
    if n < 0x100 then .ok (BitVec.ofNat 8 n) else .error .dataTooLarge

/-- A round index, at most 15. -/
def parseIndex (cs : List Char) : Except SyntaxError (BitVec 4) :=
  (parseNumber cs).bind fun n =>
    if n < 16 then .ok (BitVec.ofNat 4 n) else .error .indexTooLarge

/-- The bytes of a hex string, byte 0 first (R10). -/
def parseHexBytes : List Char → Except SyntaxError (List Byte)
  | [] => .ok []
  | [_] => .error .badHexString
  | a :: b :: cs =>
    match digitsValue 16 0 [a, b] with
    | none => .error .badHexString
    | some n => (parseHexBytes cs).map (BitVec.ofNat 8 n :: ·)

/-- A 32-hex-digit block (R79). -/
def parseBlock (cs : List Char) : Except SyntaxError Block :=
  (parseHexBytes cs).bind fun bs =>
    if h : bs.length = 16 then .ok ⟨bs.toArray, by simpa using h⟩ else .error .badHexString

/-- A key of 1 to 32 bytes (R79). -/
def parseKey (cs : List Char) : Except SyntaxError (List Byte) :=
  (parseHexBytes cs).bind fun bs =>
    if 1 ≤ bs.length ∧ bs.length ≤ 32 then .ok bs else .error .badHexString

/-- The mnemonics of R72, without ADD_ROUND_KEY's operand. -/
def plainMnemonics : List (List Char × Instr) :=
  [("NOP".toList, .nop), ("EXPAND_KEY".toList, .expandKey), ("ENCRYPT".toList, .encrypt),
   ("DECRYPT".toList, .decrypt), ("SUB_BYTES".toList, .subBytes),
   ("INV_SUB_BYTES".toList, .invSubBytes), ("SHIFT_ROWS".toList, .shiftRows),
   ("INV_SHIFT_ROWS".toList, .invShiftRows), ("MIX_COLUMNS".toList, .mixColumns),
   ("INV_MIX_COLUMNS".toList, .invMixColumns), ("GF_MUL".toList, .gfMul)]

/-- `cmd MNEMONIC` or `cmd 0xNN` (R78). -/
def parseCommand (m : List Char) : Except SyntaxError HostLine :=
  match plainMnemonics.find? (·.1 == m) with
  | some p => .ok (.cmd p.2)
  | none => (parseData m).map .cmdByte

/-- A line's words: `;` starts a comment (R78), and blanks and commas separate words. -/
def splitWords : List Char → List Char → List (List Char)
  | word, [] => if word.isEmpty then [] else [word.reverse]
  | word, c :: cs =>
    if c == ';' then (if word.isEmpty then [] else [word.reverse])
    else if c == ' ' || c == ',' || c == '\t' then
      (if word.isEmpty then splitWords [] cs else word.reverse :: splitWords [] cs)
    else splitWords (c :: word) cs

/-- The line a list of words spells (R78, R79). -/
def parseWords (ws : List (List Char)) : Except SyntaxError HostLine :=
  match ws.map String.ofList, ws with
  | ["wr", _, _], [_, o, v] => (parseOffset o).bind fun off => (parseData v).map (.wr off)
  | ["rd", _], [_, o] => (parseOffset o).map .rd
  | ["rd", _, "->", _], [_, o, _, v] =>
    (parseOffset o).bind fun off => (parseData v).map (.rdIs off)
  | ["cmd", "ADD_ROUND_KEY", _], [_, _, r] => (parseIndex r).map fun r => .cmd (.addRoundKey r)
  | ["cmd", _], [_, m] => parseCommand m
  | ["ldstate", _], [_, b] => (parseBlock b).map .ldstate
  | ["rdstate"], _ => .ok .rdstate
  | ["rdstate", "->", _], [_, _, b] => (parseBlock b).map .rdstateIs
  | ["ldkey", _], [_, k] => (parseKey k).map .ldkey
  | ["rdstatus", "->", _], [_, _, v] => (parseData v).map .rdstatusIs
  | ["rdrk", _], [_, r] => (parseIndex r).map .rdrk
  | ["rdrk", _, "->", _], [_, r, _, b] => (parseIndex r).bind fun r => (parseBlock b).map (.rdrkIs r)
  | ["gfmul", _, _], [_, a, b] => (parseData a).bind fun a => (parseData b).map (.gfmul a)
  | _, _ => .error .unknownLine

/-- A line of text; a blank or comment line spells nothing. -/
def parseLine (cs : List Char) : Except SyntaxError (Option HostLine) :=
  match splitWords [] cs with
  | [] => .ok none
  | ws => (parseWords ws).map some

end Sys2Proof.Machine
end

