-- ==== Sys2Proof/Safety.lean ====
section
/-! DEFINITION. The words the claims are stated in: the invariant of the key state and of ERR
(10_state.md rule R31, as the writers of R30 and R32 bear it out), reachability, runs of several
instructions, the command sequences of 40_block_cipher.md rules R107 and R108, and which offsets an
instruction may change (30_encoding.md rule R72, 20_memory.md rule R52). A run is safe when every step
of it answers a next state. -/

namespace Sys2Proof.Machine

/-! ### The invariant -/

/-- What every reachable engine satisfies (R31). R31's clause "ERR = 3 implies KEY_VALID = 1" is not
here: a KEYLEN or KEY write clears KEY_VALID and leaves ERR (R30, R32, R51), so it holds only until such
a write; `rangeNeedsRounds` is the part of it that stays. DEDUCED, notes/assumptions/5.md. -/
structure Engine.Inv (e : Engine) : Prop where
  /-- KEY_VALID = 1: KEYLEN is legal, NR matches it, and RK is the expansion of KEY, with zeros past
  round key NR (R31). -/
  keyState : e.keyValid = true →
    legalKeyLength e.keylen = true ∧ e.nr = BitVec.ofNat 8 (nrOf (nkOf e.keylen)) ∧
      e.rk = expandedKey e.keylen e.key
  /-- NR is 0, 10, 12 or 14 (R25). -/
  nrLegal : e.nr = 0 ∨ e.nr = 10 ∨ e.nr = 12 ∨ e.nr = 14
  /-- NR = 0: RK is all 0x00 (R31). -/
  noKeyYet : e.nr = 0 → e.rk = Vector.replicate 240 0x00
  /-- The bytes of RK past round key NR are 0x00 (R28). -/
  zeroTail : ∀ j : Fin 240, 16 * (e.nr.toNat + 1) ≤ j.val → e.rk[j] = 0x00
  /-- ERR is one of the codes 0 to 4 (R23, R201). -/
  errLegal : e.err.toNat ≤ 4
  /-- ERR = 1 or 2 implies KEY_VALID = 0 (R31; 95_test_vectors.md V13). -/
  errNeedsNoKey : e.err = 1 ∨ e.err = 2 → e.keyValid = false
  /-- ERR = 3 implies that a key has been expanded: ROUND_RANGE is checked only when KEY_VALID = 1
  (R203), and NR returns to 0 only at reset (R25). -/
  rangeNeedsRounds : e.err = 3 → e.nr ≠ 0

/-- The states a run can meet: reset, one step after another, and whatever the host decides to do
next in between (R17, R59). -/
inductive Reachable : State → Prop where
  | reset : Reachable State.reset
  | host (s : State) (inputs : List PortInput) : Reachable s → Reachable { s with pending := inputs }
  | step (s t : State) : Reachable s → Machine.step s = .next t → Reachable t

/-- A step from `s` completes. -/
def StepCompletes (s : State) : Prop := ∃ t, Machine.step s = .next t

/-! ### Runs of several instructions -/

/-- Instructions one after another, stopping at the first that gives no next state. -/
def runInstrs : List Instr → State → Result
  | [], s => .next s
  | i :: is, s =>
    match exec i s with
    | .next t => runInstrs is t
    | .fault f => .fault f
    | .refused r => .refused r

/-- ADD_ROUND_KEY of a round number. -/
def addKeyOf (r : Nat) : Instr := .addRoundKey (BitVec.ofNat 4 r)

/-- R107's command sequence for `Nr` rounds. -/
def encryptSequence (nr : Nat) : List Instr :=
  addKeyOf 0 ::
    (List.range' 1 (nr - 1)).flatMap (fun r => [.subBytes, .shiftRows, .mixColumns, addKeyOf r]) ++
    [.subBytes, .shiftRows, addKeyOf nr]

/-- R108's command sequence for `Nr` rounds. -/
def decryptSequence (nr : Nat) : List Instr :=
  [addKeyOf nr, .invShiftRows, .invSubBytes] ++
    (List.range' 1 (nr - 1)).reverse.flatMap
      (fun r => [addKeyOf r, .invMixColumns, .invShiftRows, .invSubBytes]) ++
    [addKeyOf 0]

/-! ### Offsets -/

/-- The STATE window (R52). -/
def stateWindow (off : Offset) : Bool := decide (0x010 ≤ off.toNat ∧ off.toNat < 0x020)

/-- The KEY window (R52). -/
def keyWindow (off : Offset) : Bool := decide (0x020 ≤ off.toNat ∧ off.toNat < 0x040)

/-- The RK window (R52). -/
def rkWindow (off : Offset) : Bool := decide (0x100 ≤ off.toNat ∧ off.toNat < 0x1F0)

/-- The reserved offsets (R52). -/
def reservedOffset (off : Offset) : Bool :=
  decide (0x007 ≤ off.toNat ∧ off.toNat < 0x010) || decide (0x040 ≤ off.toNat ∧ off.toNat < 0x100) ||
    decide (0x1F0 ≤ off.toNat)

/-- The offsets the host may read and write, CMD apart: KEYLEN, GFA, GFB, STATE, KEY (R20). -/
def readWriteOffset (off : Offset) : Bool :=
  off == 0x002 || off == 0x004 || off == 0x005 || stateWindow off || keyWindow off

/-- R72's "writes" column, as offsets: ERR and KEY_VALID are read at STATUS. -/
def commandWrites : Instr → Offset → Bool
  | .nop, off => off == 0x001
  | .expandKey, off => off == 0x001 || off == 0x003 || rkWindow off
  | .encrypt, off => off == 0x001 || stateWindow off
  | .decrypt, off => off == 0x001 || stateWindow off
  | .subBytes, off => off == 0x001 || stateWindow off
  | .invSubBytes, off => off == 0x001 || stateWindow off
  | .shiftRows, off => off == 0x001 || stateWindow off
  | .invShiftRows, off => off == 0x001 || stateWindow off
  | .mixColumns, off => off == 0x001 || stateWindow off
  | .invMixColumns, off => off == 0x001 || stateWindow off
  | .addRoundKey _, off => off == 0x001 || stateWindow off
  | .gfMul, off => off == 0x001 || off == 0x006
  | .illegalCmd _, off => off == 0x001
  | .hostWrite _ _, _ => false
  | .hostRead _, _ => false

/-- The code a command leaves in ERR, by R201's conditions in R203's order; 0 is success. Only a command
has a code; the two transactions stand here with 0. -/
def resultCode : Instr → Engine → BitVec 3
  | .illegalCmd _, _ => 4
  | .expandKey, e => if e.keylen = 0x10 ∨ e.keylen = 0x18 ∨ e.keylen = 0x20 then 0 else 1
  | .encrypt, e => if e.keyValid then 0 else 2
  | .decrypt, e => if e.keyValid then 0 else 2
  | .addRoundKey r, e => if e.keyValid then (if e.nr.toNat < r.toNat then 3 else 0) else 2
  | .nop, _ => 0
  | .subBytes, _ => 0
  | .invSubBytes, _ => 0
  | .shiftRows, _ => 0
  | .invShiftRows, _ => 0
  | .mixColumns, _ => 0
  | .invMixColumns, _ => 0
  | .gfMul, _ => 0
  | .hostWrite _ _, _ => 0
  | .hostRead _, _ => 0

/-- The offsets whose byte an instruction may change: R72's column for a command; for a host write the
offset itself, STATUS where KEY_VALID is cleared, and the command's own at CMD (R52). -/
def mayWrite : Instr → Offset → Bool
  | .hostWrite at_ v, off =>
    if at_ = 0x000 then off == 0x000 || commandWrites (decodeCommand v) off
    else if at_ = 0x002 ∨ keyWindow at_ = true then off == at_ || off == 0x001
    else readWriteOffset at_ && off == at_
  | .hostRead _, _ => false
  | .nop, off => commandWrites .nop off
  | .expandKey, off => commandWrites .expandKey off
  | .encrypt, off => commandWrites .encrypt off
  | .decrypt, off => commandWrites .decrypt off
  | .subBytes, off => commandWrites .subBytes off
  | .invSubBytes, off => commandWrites .invSubBytes off
  | .shiftRows, off => commandWrites .shiftRows off
  | .invShiftRows, off => commandWrites .invShiftRows off
  | .mixColumns, off => commandWrites .mixColumns off
  | .invMixColumns, off => commandWrites .invMixColumns off
  | .addRoundKey r, off => commandWrites (.addRoundKey r) off
  | .gfMul, off => commandWrites .gfMul off
  | .illegalCmd v, off => commandWrites (.illegalCmd v) off

/-- ENCRYPT, DECRYPT and ADD_ROUND_KEY: the commands that need a valid key (R30). -/
def isKeyed : Instr → Bool
  | .encrypt => true
  | .decrypt => true
  | .addRoundKey _ => true
  | .nop => false
  | .expandKey => false
  | .subBytes => false
  | .invSubBytes => false
  | .shiftRows => false
  | .invShiftRows => false
  | .mixColumns => false
  | .invMixColumns => false
  | .gfMul => false
  | .illegalCmd _ => false
  | .hostWrite _ _ => false
  | .hostRead _ => false

end Sys2Proof.Machine
end

