-- ==== Sys2Proof/Certificates/Slice0/Obligations.lean ====
section
/-! DEFINITION. The statements for the provers, from the spec's numbered rules. Commands are stated at
`exec`, as Execute runs them with CMD already written (30_encoding.md rule R70), and at
`exec (.hostWrite 0x000 v)` where the whole CMD write matters. -/

open Sys2Proof Sys2Proof.Machine

/-! ### Encoding (30_encoding.md) -/

/-- Decoding an encoded well-formed instruction gives it back, every operand at every value
(R71, R75, R77, R80). -/
def Obligations.DecodeOfEncodeIsTheInstruction : Prop :=
  ∀ i : Instr, i.wf = true → decode (encode i) = .ok i

/-- Each word has one meaning: what a word decodes to is well formed and encodes to that word
(R74, R76, R77). Every command byte decodes (R74). A transaction word is refused exactly when it is a
read with DATA other than 0; R77 only says that DATA is 0 for a read, and refusing the other words is
the model's choice, notes/assumptions/4.md. -/
def Obligations.EncodeOfDecodeIsTheWord : Prop :=
  (∀ (w : TableWord) (i : Instr), decode w = .ok i → i.wf = true ∧ encode i = w) ∧
  (∀ v : Byte, ∃ i : Instr, decode (.cmd8 v) = .ok i) ∧
  (∀ w : BitVec 18, decode (.txn18 w) = .error .readWithData ↔
    w.getLsbD 17 = false ∧ w.extractLsb' 0 8 ≠ 0) ∧
  (∀ w : BitVec 18, ¬ (w.getLsbD 17 = false ∧ w.extractLsb' 0 8 ≠ 0) →
    ∃ i : Instr, decode (.txn18 w) = .ok i)

/-- Words written out from R80's patterns and R77's fields decode to what they stand for. The last
clause, that a read with DATA other than 0 is refused, is no rule of the spec but the model's choice,
notes/assumptions/4.md. -/
def Obligations.WrittenOutWordsDecode : Prop :=
  decode (.cmd8 0b00000000#8) = .ok .nop ∧
  decode (.cmd8 0b00000001#8) = .ok .expandKey ∧
  decode (.cmd8 0b00000010#8) = .ok .encrypt ∧
  decode (.cmd8 0b00000011#8) = .ok .decrypt ∧
  decode (.cmd8 0b00000100#8) = .ok .subBytes ∧
  decode (.cmd8 0b00000101#8) = .ok .invSubBytes ∧
  decode (.cmd8 0b00000110#8) = .ok .shiftRows ∧
  decode (.cmd8 0b00000111#8) = .ok .invShiftRows ∧
  decode (.cmd8 0b00001000#8) = .ok .mixColumns ∧
  decode (.cmd8 0b00001001#8) = .ok .invMixColumns ∧
  decode (.cmd8 0b00111010#8) = .ok (.addRoundKey 3) ∧
  decode (.cmd8 0b00001011#8) = .ok .gfMul ∧
  decode (.cmd8 0b00011011#8) = .ok (.illegalCmd 0x1B) ∧
  decode (.txn18 0b100000000000000010#18) = .ok (.hostWrite 0x000 0x02) ∧
  decode (.txn18 0b100001000000000000#18) = .ok (.hostWrite 0x010 0x00) ∧
  decode (.txn18 0b000000000100000000#18) = .ok (.hostRead 0x001) ∧
  decode (.txn18 0b000000000100000001#18) = .error .readWithData

/-- R80's procedure: a byte is decoded by testing `v & mask == match` against each row, at most one
row matches, and a byte no row matches is ILLEGAL_CMD. -/
def Obligations.CommandTableScanIsTheDecoder : Prop :=
  (∀ v : Byte, scanRows v = rowIndex (decodeCommand v)) ∧
  (∀ v : Byte, ∀ a ∈ commandRows, ∀ b ∈ commandRows,
    a.matches v = true → b.matches v = true → a = b) ∧
  (∀ v : Byte, scanRows v = none ↔ decodeCommand v = .illegalCmd v)

/-- R74: OP 0xC to 0xF is illegal with every ARG; an illegal byte raises CmdError(4) and has no other
effect than ERR and the stored CMD; 27 bytes are legal, and they are the listed ones; the other 229
are ILLEGAL_CMD. -/
def Obligations.TwoHundredTwentyNineBytesAreIllegal : Prop :=
  (∀ (v : Byte) (s : State),
    exec (.illegalCmd v) s = .next { s with engine := { s.engine with err := 4 } }) ∧
  (∀ v : Byte, 0xC ≤ (opField v).toNat → decodeCommand v = .illegalCmd v) ∧
  (∀ (v : Byte) (s : State), decodeCommand v = .illegalCmd v →
    exec (.hostWrite 0x000 v) s = .next { s with engine := { s.engine with cmd := v, err := 4 } }) ∧
  (∀ v : Byte, decodeCommand v ≠ .illegalCmd v ↔
    v.toNat ≤ 0x09 ∨ v = 0x0B ∨ ∃ r : BitVec 4, v = commandByte r 0xA) ∧
  ((List.range 256).filter fun n =>
    decodeCommand (BitVec.ofNat 8 n) != .illegalCmd (BitVec.ofNat 8 n)).length = 27 ∧
  ((List.range 256).filter fun n =>
    decodeCommand (BitVec.ofNat 8 n) == .illegalCmd (BitVec.ofNat 8 n)).length = 229

/-- R73: with OP 0x0 to 0x9 or 0xB and ARG ≠ 0 a byte raises ILLEGAL_CMD and changes nothing except ERR
and CMD; with OP 0xA every ARG is well formed, and is the round index. -/
def Obligations.NonzeroArgIsIllegalExceptForAddRoundKey : Prop :=
  (∀ (arg op : BitVec 4) (s : State), arg ≠ 0 → (op.toNat ≤ 0x9 ∨ op = 0xB) →
    exec (.hostWrite 0x000 (commandByte arg op)) s =
      .next { s with engine := { s.engine with cmd := commandByte arg op, err := 4 } }) ∧
  (∀ arg : BitVec 4, decodeCommand (commandByte arg 0xA) = .addRoundKey arg ∧
    (Instr.addRoundKey arg).wf = true)

/-- R77: W in bit 17, OFF in bits 16:8, DATA in bits 7:0, DATA 0 for a read, and the three example
words. -/
def Obligations.TransactionWordHasItsFields : Prop :=
  (∀ (off : Offset) (v : Byte), ∃ w : BitVec 18, encode (.hostWrite off v) = .txn18 w ∧
    w.getLsbD 17 = true ∧ w.extractLsb' 8 9 = off ∧ w.extractLsb' 0 8 = v) ∧
  (∀ off : Offset, ∃ w : BitVec 18, encode (.hostRead off) = .txn18 w ∧
    w.getLsbD 17 = false ∧ w.extractLsb' 8 9 = off ∧ w.extractLsb' 0 8 = 0) ∧
  encode (.hostWrite 0x000 0x02) = .txn18 0x20002 ∧
  encode (.hostWrite 0x010 0x00) = .txn18 0x21000 ∧
  encode (.hostRead 0x001) = .txn18 0x00100

/-- R79: what each pseudo-instruction expands to, and R78's `cmd ADD_ROUND_KEY r`. `ldkey` writes
KEYLEN for every length from 1 to 32 and only the bytes given. -/
def Obligations.PseudoInstructionsExpand : Prop :=
  (∀ k : List Byte, (HostLine.ldkey k).wf = true ↔ 1 ≤ k.length ∧ k.length ≤ 32) ∧
  HostLine.rdstate.expand =
    (List.range 16).map (fun j => ⟨⟨false, BitVec.ofNat 9 (0x010 + j), 0⟩, none⟩) ∧
  (∀ v : Byte, (HostLine.rdstatusIs v).expand = [⟨⟨false, 0x001, 0⟩, some v⟩]) ∧
  (∀ k : List Byte, (HostLine.ldkey k).expand.map ProgramTxn.txn =
    ⟨true, 0x002, BitVec.ofNat 8 k.length⟩ ::
      (List.range k.length).map fun j => ⟨true, BitVec.ofNat 9 (0x020 + j), k.getD j 0⟩) ∧
  (∀ b : Block, (HostLine.ldstate b).expand.map ProgramTxn.txn =
    (List.range 16).map fun j => ⟨true, BitVec.ofNat 9 (0x010 + j), b.toList.getD j 0⟩) ∧
  (∀ b : Block, (HostLine.rdstateIs b).expand =
    (List.range 16).map fun j =>
      ⟨⟨false, BitVec.ofNat 9 (0x010 + j), 0⟩, some (b.toList.getD j 0)⟩) ∧
  (∀ (r : BitVec 4) (b : Block), (HostLine.rdrkIs r b).expand =
    (List.range 16).map fun j =>
      ⟨⟨false, BitVec.ofNat 9 (0x100 + 16 * r.toNat + j), 0⟩, some (b.toList.getD j 0)⟩) ∧
  (∀ a b : Byte, (HostLine.gfmul a b).expand.map ProgramTxn.txn =
    [⟨true, 0x004, a⟩, ⟨true, 0x005, b⟩, ⟨true, 0x000, 0x0B⟩]) ∧
  (∀ r : BitVec 4, (HostLine.cmd (.addRoundKey r)).expand.map ProgramTxn.txn =
    [⟨true, 0x000, commandByte r 0xA⟩])

/-! ### The step, the port and reset -/

/-- A step runs the decoded transaction: with a transaction next on the port, `step` is `exec` of the
instruction its signals name, the transaction being taken and everything after it left to come
(R17, R50, R59); the same for the transaction word the signals spell (R77), whose instruction is well
formed; and a write of a byte to CMD runs the command the byte decodes to, with CMD already written
(R70). The queue is the model's own (notes/assumptions/1.md). -/
def Obligations.StepRunsTheDecodedTransaction : Prop :=
  ∀ (s : State) (rest : List PortInput),
    (∀ (off : Offset) (v : Byte), s.pending = .txn ⟨true, off, v⟩ :: rest →
      step s = exec (.hostWrite off v) { s with pending := rest }) ∧
    (∀ (off : Offset) (v : Byte), s.pending = .txn ⟨false, off, v⟩ :: rest →
      step s = exec (.hostRead off) { s with pending := rest }) ∧
    (∀ (w : BitVec 18) (i : Instr), decode (.txn18 w) = .ok i →
      s.pending = .txn (txnOfWord w) :: rest →
      i.wf = true ∧ step s = exec i { s with pending := rest }) ∧
    (∀ (v : Byte) (i : Instr), decode (.cmd8 v) = .ok i →
      s.pending = .txn ⟨true, 0x000, v⟩ :: rest →
      i.wf = true ∧ step s = exec i
        { s with engine := { s.engine with cmd := v }, pending := rest })

/-- With no transaction the engine is idle and holds all state (R214; the model's choice of what such
a step is, notes/assumptions/2.md). -/
def Obligations.IdleStepHoldsAllState : Prop :=
  ∀ s : State, s.pending = [] → step s = .next s

/-- R230: reset, at power-on and through the reset input, puts every register at 0x00, KEY_VALID at 0,
and executes nothing. -/
def Obligations.ResetPutsEveryRegisterAtZero : Prop :=
  ∀ (t : State),
    (t = State.reset ∨
      ∃ (s : State) (rest : List PortInput), s.pending = .reset :: rest ∧ step s = .next t) →
    t.engine.cmd = 0x00 ∧ t.engine.err = 0 ∧ t.engine.keyValid = false ∧ t.engine.status = 0x00 ∧
    t.engine.keylen = 0x00 ∧ t.engine.nr = 0x00 ∧
    t.engine.gfa = 0x00 ∧ t.engine.gfb = 0x00 ∧ t.engine.gfr = 0x00 ∧
    (∀ k : Fin 16, t.engine.state[k] = 0x00) ∧ (∀ k : Fin 32, t.engine.key[k] = 0x00) ∧
    (∀ j : Fin 240, t.engine.rk[j] = 0x00)

/-- The reset input completes from every state (R230); that the host's own queue and record stay is the
model's choice (notes/assumptions/9.md). -/
def Obligations.ResetInputCompletes : Prop :=
  ∀ (s : State) (rest : List PortInput), s.pending = .reset :: rest →
    step s = .next { engine := State.reset.engine, pending := rest, returned := s.returned }

/-- R70: a write of `v` to CMD stores `v` and then runs the command `v` names, within the one
transaction. -/
def Obligations.CmdWriteStoresThenExecutes : Prop :=
  (∀ (v : Byte) (s : State), exec (.hostWrite 0x000 v) s =
    exec (decodeCommand v) { s with engine := { s.engine with cmd := v } }) ∧
  decodeCommand 0x00 = .nop ∧ decodeCommand 0x01 = .expandKey ∧
  decodeCommand 0x02 = .encrypt ∧ decodeCommand 0x03 = .decrypt ∧
  decodeCommand 0x04 = .subBytes ∧ decodeCommand 0x05 = .invSubBytes ∧
  decodeCommand 0x06 = .shiftRows ∧ decodeCommand 0x07 = .invShiftRows ∧
  decodeCommand 0x08 = .mixColumns ∧ decodeCommand 0x09 = .invMixColumns ∧
  (∀ r : BitVec 4, decodeCommand (commandByte r 0xA) = .addRoundKey r) ∧
  decodeCommand 0x0B = .gfMul ∧
  (∀ arg op : BitVec 4, 0xC ≤ op.toNat →
    decodeCommand (commandByte arg op) = .illegalCmd (commandByte arg op)) ∧
  (∀ arg op : BitVec 4, arg ≠ 0 → op ≠ 0xA →
    decodeCommand (commandByte arg op) = .illegalCmd (commandByte arg op)) ∧
  (∀ (v : Byte) (x : BitVec 3) (s : State),
    exec (decodeCommand v) { s with engine := { s.engine with err := x } } = exec (decodeCommand v) s)

/-- R18, R200: no step stops. Every port event, hence every offset and every command byte, has a
defined effect: there is no fault and no refusal. -/
def Obligations.EveryStepAnswersANextState : Prop :=
  ∀ s : State, StepCompletes s

/-- R59: transactions take effect one at a time in issue order: running as many steps as the host has
transactions is executing those transactions one after another. -/
def Obligations.StepsRunTransactionsInIssueOrder : Prop :=
  ∀ (ts : List Txn) (rest : List PortInput) (s : State),
    core.run ts.length { s with pending := ts.map PortInput.txn ++ rest } =
      runInstrs (ts.map decodeSignals) { s with pending := rest }

/-! ### The address map (20_memory.md) -/

/-- The "read returns" column of the map (R51, R52) at every register's offsets: a host read returns the
byte the map gives, and changes no register. The reserved offsets stand in
`ReservedAndReadOnlyOffsetsIgnoreWrites`. -/
def Obligations.HostReadReturnsTheMappedByte : Prop :=
  ∀ (s : State),
    let reads (off : Offset) (v : Byte) : Prop :=
      exec (.hostRead off) s = .next { s with returned := s.returned ++ [v] }
    reads 0x000 s.engine.cmd ∧
    reads 0x001 (((BitVec.ofBool s.engine.keyValid).setWidth 8 <<< 3) ||| s.engine.err.setWidth 8) ∧
    reads 0x002 s.engine.keylen ∧ reads 0x003 s.engine.nr ∧
    reads 0x004 s.engine.gfa ∧ reads 0x005 s.engine.gfb ∧ reads 0x006 s.engine.gfr ∧
    (∀ k : Fin 16, reads (BitVec.ofNat 9 (0x010 + k.val)) s.engine.state[k]) ∧
    (∀ k : Fin 32, reads (BitVec.ofNat 9 (0x020 + k.val)) s.engine.key[k]) ∧
    (∀ j : Fin 240, reads (BitVec.ofNat 9 (0x100 + j.val)) s.engine.rk[j])

/-- The "write does" column of the map (R51, R52) at the registers the host may write, CMD apart: the
stored byte, and the cleared KEY_VALID. The writes that do nothing stand in
`ReservedAndReadOnlyOffsetsIgnoreWrites`, a CMD write in `CmdWriteStoresThenExecutes`. -/
def Obligations.HostWriteStoresWhereTheMapSays : Prop :=
  ∀ (s : State) (v : Byte),
    exec (.hostWrite 0x002 v) s =
      .next { s with engine := { s.engine with keylen := v, keyValid := false } } ∧
    exec (.hostWrite 0x004 v) s = .next { s with engine := { s.engine with gfa := v } } ∧
    exec (.hostWrite 0x005 v) s = .next { s with engine := { s.engine with gfb := v } } ∧
    (∀ k : Fin 16, exec (.hostWrite (BitVec.ofNat 9 (0x010 + k.val)) v) s =
      .next { s with engine := { s.engine with state := s.engine.state.set k v } }) ∧
    (∀ k : Fin 32, exec (.hostWrite (BitVec.ofNat 9 (0x020 + k.val)) v) s =
      .next { s with engine := { s.engine with key := s.engine.key.set k v, keyValid := false } })

/-- R53: a read of a reserved offset returns 0x00; a write to one, or to STATUS, NR, GFR or RK, has no
effect on any state. -/
def Obligations.ReservedAndReadOnlyOffsetsIgnoreWrites : Prop :=
  (∀ (off : Offset) (s : State), reservedOffset off = true →
    exec (.hostRead off) s = .next { s with returned := s.returned ++ [0x00] }) ∧
  (∀ (off : Offset) (v : Byte) (s : State),
    reservedOffset off = true ∨ off = 0x001 ∨ off = 0x003 ∨ off = 0x006 ∨ rkWindow off = true →
    exec (.hostWrite off v) s = .next s)

/-- R59 on one write: the offset then reads as the byte written and every other offset as before, but
for STATUS, where a KEYLEN or KEY write clears bit 3 (R52, R57). -/
def Obligations.ReadAfterWriteReturnsTheByteWritten : Prop :=
  ∀ (off : Offset) (v : Byte) (s : State), readWriteOffset off = true →
    ∃ t : State, exec (.hostWrite off v) s = .next t ∧
      t.engine.byteAt off = v ∧
      (∀ other : Offset, other ≠ off → other ≠ 0x001 →
        t.engine.byteAt other = s.engine.byteAt other) ∧
      t.engine.byteAt 0x001 =
        (if off = 0x002 ∨ keyWindow off = true then s.engine.byteAt 0x001 &&& 0x07
         else s.engine.byteAt 0x001) ∧
      t.pending = s.pending ∧ t.returned = s.returned

/-- R57: a repeated read returns the same byte, the one the offset holds, and changes no register; a CMD
write executes a command and is not idempotent (ENCRYPT twice encrypts twice, and there is a state of
the engine with its invariant where two writes leave another STATE than one); KEYLEN and KEY writes
clear KEY_VALID; every other write is idempotent. -/
def Obligations.OnlyCmdWritesAreNotIdempotent : Prop :=
  (∀ (off : Offset) (s : State), runInstrs [.hostRead off, .hostRead off] s =
    .next { s with returned := s.returned ++ [s.engine.byteAt off, s.engine.byteAt off] }) ∧
  (∀ (v : Byte) (s : State), exec (.hostWrite 0x000 v) s =
    exec (decodeCommand v) { s with engine := { s.engine with cmd := v } }) ∧
  (∀ s : State, s.engine.keyValid = true → ∃ t : State,
    runInstrs [.hostWrite 0x000 0x02, .hostWrite 0x000 0x02] s = .next t ∧
      t.engine.state = cipher (cipher s.engine.state s.engine.nr.toNat s.engine.rk)
        s.engine.nr.toNat s.engine.rk) ∧
  (∃ s t u : State, s.engine.Inv ∧ s.engine.keyValid = true ∧
    exec (.hostWrite 0x000 0x02) s = .next t ∧
    runInstrs [.hostWrite 0x000 0x02, .hostWrite 0x000 0x02] s = .next u ∧
    u.engine.state ≠ t.engine.state) ∧
  (∀ (off : Offset) (v : Byte) (s : State), off = 0x002 ∨ keyWindow off = true →
    ∃ t : State, exec (.hostWrite off v) s = .next t ∧ t.engine.keyValid = false) ∧
  (∀ (off : Offset) (v : Byte) (s : State), off ≠ 0x000 → ∃ t : State,
    exec (.hostWrite off v) s = .next t ∧ exec (.hostWrite off v) t = .next t)

/-- R36: the engine has no state that a host cannot read: two engines that read alike at every offset
are the same. -/
def Obligations.EveryRegisterIsReadable : Prop :=
  ∀ e e' : Engine, (∀ off : Offset, e.byteAt off = e'.byteAt off) → e = e'

/-- The frame of every instruction, read byte by byte: it changes no offset outside those R72 and R52
give it. -/
def Obligations.InstructionsChangeOnlyTheirOffsets : Prop :=
  ∀ (i : Instr) (s : State), ∃ t : State, exec i s = .next t ∧
    (∀ off : Offset, mayWrite i off = false → t.engine.byteAt off = s.engine.byteAt off) ∧
    t.pending = s.pending ∧
    ((∀ off : Offset, i ≠ .hostRead off) → t.returned = s.returned)

/-! ### Flags (10_state.md) -/

/-- R30: the writers of KEY_VALID, all of them, and its readers: the keyed commands raise NO_KEY when
it is 0, and no other command reads it. -/
def Obligations.KeyValidHasTheListedWritersAndReaders : Prop :=
  (∀ s : State, legalKeyLength s.engine.keylen = true → ∃ t : State,
    exec .expandKey s = .next t ∧ t.engine.keyValid = true) ∧
  (∀ s : State, legalKeyLength s.engine.keylen = false → ∃ t : State,
    exec .expandKey s = .next t ∧ t.engine.keyValid = false) ∧
  (∀ (off : Offset) (v : Byte) (s : State), off = 0x002 ∨ keyWindow off = true → ∃ t : State,
    exec (.hostWrite off v) s = .next t ∧ t.engine.keyValid = false) ∧
  State.reset.engine.keyValid = false ∧
  (∀ (s : State) (rest : List PortInput), s.pending = .reset :: rest → ∃ t : State,
    step s = .next t ∧ t.engine.keyValid = false) ∧
  (∀ (i : Instr) (s : State),
    i ≠ .expandKey → i ≠ .hostWrite 0x000 0x01 →
    (∀ (off : Offset) (v : Byte), i = .hostWrite off v → off ≠ 0x002 ∧ keyWindow off = false) →
    ∃ t : State, exec i s = .next t ∧ t.engine.keyValid = s.engine.keyValid) ∧
  (∀ (i : Instr) (s : State), isKeyed i = true → s.engine.keyValid = false →
    exec i s = .next { s with engine := { s.engine with err := 2 } }) ∧
  (∀ (i : Instr) (s : State) (b : Bool), i.isCommand = true → isKeyed i = false → ∃ t : State,
    exec i s = .next t ∧
    exec i { s with engine := { s.engine with keyValid := b } } =
      .next { t with engine := { t.engine with
        keyValid := if i = .expandKey then t.engine.keyValid else b } })

/-- R32: every command writes ERR, 0 on success or the failing code, and none reads it (what a command
leaves does not depend on the ERR it finds); no other transaction changes it, and reset makes it 0. -/
def Obligations.ErrIsWrittenByEveryCommandAndNothingElse : Prop :=
  (∀ (i : Instr) (s : State) (x : BitVec 3), i.isCommand = true → ∃ t : State,
    exec i s = .next t ∧ exec i { s with engine := { s.engine with err := x } } = .next t ∧
    t.engine.err = resultCode i s.engine) ∧
  (∀ (off : Offset) (v : Byte) (s : State), off ≠ 0x000 → ∃ t : State,
    exec (.hostWrite off v) s = .next t ∧ t.engine.err = s.engine.err) ∧
  (∀ (off : Offset) (s : State), ∃ t : State,
    exec (.hostRead off) s = .next t ∧ t.engine.err = s.engine.err) ∧
  State.reset.engine.err = 0 ∧
  (∀ (s : State) (rest : List PortInput), s.pending = .reset :: rest → ∃ t : State,
    step s = .next t ∧ t.engine.err = 0)

/-- The invariant of the key state and of ERR: every step keeps it (R31 as R30 and R32 bear it out; the
clause on ERR = 3 is left out, notes/assumptions/5.md). -/
def Obligations.StepKeepsTheEngineInvariant : Prop :=
  ∀ s t : State, s.engine.Inv → step s = .next t → t.engine.Inv

/-- The invariant holds right after reset. -/
def Obligations.ResetMeetsTheEngineInvariant : Prop :=
  State.reset.engine.Inv

/-- In every state a run can meet STATUS reads as one of eight values: R31's seven and 0x03
(notes/assumptions/5.md). Right after a command R31's list and its clauses on ERR hold as they stand:
STATUS is one of the seven. It becomes 0x03 in one way only: from 0x0B, by a KEYLEN or KEY write. -/
def Obligations.ReachableStatusIsOneOfEightValues : Prop :=
  ∀ s : State, Reachable s →
    s.engine.byteAt 0x001 ∈ ([0x00, 0x01, 0x02, 0x03, 0x04, 0x08, 0x0B, 0x0C] : List Byte) ∧
    (∀ v : Byte, ∃ t : State, exec (.hostWrite 0x000 v) s = .next t ∧
      t.engine.byteAt 0x001 ∈ ([0x00, 0x01, 0x02, 0x04, 0x08, 0x0B, 0x0C] : List Byte) ∧
      (t.engine.err = 1 → t.engine.keyValid = false) ∧
      (t.engine.err = 3 → t.engine.keyValid = true)) ∧
    (∀ t : State, step s = .next t → s.engine.byteAt 0x001 ≠ 0x03 → t.engine.byteAt 0x001 = 0x03 →
      s.engine.byteAt 0x001 = 0x0B ∧
      ∃ (off : Offset) (v : Byte) (rest : List PortInput),
        s.pending = .txn ⟨true, off, v⟩ :: rest ∧ (off = 0x002 ∨ keyWindow off = true))

/-- A state with STATUS = 0x03 (ERR = 3, KEY_VALID = 0) is reachable: a KEYLEN write after a ROUND_RANGE
failure clears KEY_VALID (R30) and leaves ERR (R32). R31's clause "ERR = 3 implies KEY_VALID = 1" and
its list of STATUS values do not follow from the rules it is derived from (notes/assumptions/5.md). -/
def Obligations.StatusThreeIsReachable : Prop :=
  ∃ s : State, Reachable s ∧ s.engine.byteAt 0x001 = 0x03 ∧ s.engine.keyValid = false ∧
    s.engine.err = 3

/-- NR and RK change only at a successful EXPAND_KEY (R25, R28): every other instruction, and
EXPAND_KEY with an illegal KEYLEN, leaves both. -/
def Obligations.OnlyExpandKeyChangesNrAndRk : Prop :=
  ∀ (i : Instr) (s : State),
    (i = .expandKey ∨ i = .hostWrite 0x000 0x01 → legalKeyLength s.engine.keylen = false) →
    ∃ t : State, exec i s = .next t ∧ t.engine.nr = s.engine.nr ∧ t.engine.rk = s.engine.rk

/-! ### Errors (60_exceptions.md) -/

/-- R203: of several failures one is reported: ILLEGAL_CMD first, then KEY_LENGTH or NO_KEY, then
ROUND_RANGE; and the three examples. -/
def Obligations.ErrorPrecedence : Prop :=
  ∀ s : State,
    let reports (v : Byte) (code : BitVec 3) : Prop :=
      ∃ t : State, exec (.hostWrite 0x000 v) s = .next t ∧ t.engine.err = code
    (∀ v : Byte, decodeCommand v = .illegalCmd v → reports v 4) ∧
    (legalKeyLength s.engine.keylen = false → reports 0x01 1) ∧
    (s.engine.keyValid = false →
      reports 0x02 2 ∧ reports 0x03 2 ∧ ∀ r : BitVec 4, reports (commandByte r 0xA) 2) ∧
    (∀ r : BitVec 4, s.engine.keyValid = true → s.engine.nr.toNat < r.toNat →
      reports (commandByte r 0xA) 3) ∧
    reports 0x1B 4 ∧ (s.engine.keyValid = false → reports 0xFA 2 ∧ reports 0x12 4)

/-- R206: errors are precise. After a failing command the state is the one before it except for
STATUS.ERR, KEY_VALID on KEY_LENGTH (R201), and CMD. -/
def Obligations.FailingCommandsHaveNoPartialEffect : Prop :=
  ∀ (v : Byte) (s : State), ∃ t : State, exec (.hostWrite 0x000 v) s = .next t ∧
    (t.engine.err ≠ 0 →
      t = { s with engine := { s.engine with
        cmd := v
        err := t.engine.err
        keyValid := if t.engine.err = 1 then false else s.engine.keyValid } })

/-! ### NOP, ENCRYPT, DECRYPT (40_block_cipher.md) -/

/-- R100: byte 0x00 is NOP, which writes 0 to ERR and nothing else; with ARG ≠ 0 it is ILLEGAL_CMD; and
the example: from STATUS = 0x0B it leaves STATUS = 0x08. -/
def Obligations.NopClearsErrOnly : Prop :=
  decodeCommand 0x00 = .nop ∧
  (∀ s : State, exec .nop s = .next { s with engine := { s.engine with err := 0 } }) ∧
  (∀ (arg : BitVec 4) (s : State), arg ≠ 0 → exec (.hostWrite 0x000 (commandByte arg 0x0)) s =
    .next { s with engine := { s.engine with cmd := commandByte arg 0x0, err := 4 } }) ∧
  (∀ s : State, s.engine.status = 0x0B → ∃ t : State,
    exec (.hostWrite 0x000 0x00) s = .next t ∧ t.engine.status = 0x08)

/-- ENCRYPT and DECRYPT (R101, R102): with a valid key STATE becomes Cipher or InvCipher of STATE under
NR and RK and ERR is 0, nothing else changing; without one, NO_KEY and nothing else; with ARG ≠ 0,
ILLEGAL_CMD whether or not a key is valid. -/
def Obligations.EncryptAndDecryptTransformState : Prop :=
  decodeCommand 0x02 = .encrypt ∧ decodeCommand 0x03 = .decrypt ∧
  (∀ s : State, s.engine.keyValid = true →
    exec .encrypt s = .next { s with engine := { s.engine with
      state := cipher s.engine.state s.engine.nr.toNat s.engine.rk, err := 0 } } ∧
    exec .decrypt s = .next { s with engine := { s.engine with
      state := invCipher s.engine.state s.engine.nr.toNat s.engine.rk, err := 0 } }) ∧
  (∀ s : State, s.engine.keyValid = false →
    exec .encrypt s = .next { s with engine := { s.engine with err := 2 } } ∧
    exec .decrypt s = .next { s with engine := { s.engine with err := 2 } }) ∧
  (∀ (arg op : BitVec 4) (s : State), arg ≠ 0 → op = 0x2 ∨ op = 0x3 →
    exec (.hostWrite 0x000 (commandByte arg op)) s =
      .next { s with engine := { s.engine with cmd := commandByte arg op, err := 4 } })

/-- The known answer (R101's example, 95_test_vectors.md V1): with KEY and KEYLEN as given, EXPAND_KEY
then ENCRYPT gives the ciphertext, and DECRYPT then gives the block back (R102's example). -/
def Obligations.KnownAnswerVector : Prop :=
  ∀ s : State, s.engine.keylen = 0x10 →
    (∀ k : Fin 16, s.engine.key[k.val] = BitVec.ofNat 8 k.val) →
    s.engine.state = #v[0x00, 0x11, 0x22, 0x33, 0x44, 0x55, 0x66, 0x77,
      0x88, 0x99, 0xaa, 0xbb, 0xcc, 0xdd, 0xee, 0xff] →
    (∃ t : State, runInstrs [.expandKey, .encrypt] s = .next t ∧
      t.engine.state = #v[0x69, 0xc4, 0xe0, 0xd8, 0x6a, 0x7b, 0x04, 0x30,
        0xd8, 0xcd, 0xb7, 0x80, 0x70, 0xb4, 0xc5, 0x5a] ∧ t.engine.status = 0x08) ∧
    (∃ t : State, runInstrs [.expandKey, .encrypt, .decrypt] s = .next t ∧
      t.engine.state = s.engine.state ∧ t.engine.status = 0x08)

/-- R105: Cipher and InvCipher undo each other for every block, every Nr of 10, 12 and 14 and every RK,
expanded key or not. -/
def Obligations.CipherAndInvCipherAreInverse : Prop :=
  ∀ (x : Block) (nr : Nat) (rk : RoundKeys), nr = 10 ∨ nr = 12 ∨ nr = 14 →
    invCipher (cipher x nr rk) nr rk = x ∧ cipher (invCipher x nr rk) nr rk = x

/-- R107: R107's command sequence leaves exactly what one ENCRYPT leaves, and none of its commands
changes KEY_VALID, NR or RK. -/
def Obligations.EncryptIsItsCommandSequence : Prop :=
  ∀ (s : State) (nr : Nat), s.engine.keyValid = true → s.engine.nr = BitVec.ofNat 8 nr →
    nr = 10 ∨ nr = 12 ∨ nr = 14 →
    (∃ t : State, runInstrs (encryptSequence nr) s = .next t ∧ exec .encrypt s = .next t ∧
      t.engine.err = 0) ∧
    (∀ i ∈ encryptSequence nr, ∀ u : State, ∃ t : State, exec i u = .next t ∧
      t.engine.keyValid = u.engine.keyValid ∧ t.engine.nr = u.engine.nr ∧ t.engine.rk = u.engine.rk)

/-- R108: R108's command sequence leaves exactly what one DECRYPT leaves. -/
def Obligations.DecryptIsItsCommandSequence : Prop :=
  ∀ (s : State) (nr : Nat), s.engine.keyValid = true → s.engine.nr = BitVec.ofNat 8 nr →
    nr = 10 ∨ nr = 12 ∨ nr = 14 →
    ∃ t : State, runInstrs (decryptSequence nr) s = .next t ∧ exec .decrypt s = .next t ∧
      t.engine.err = 0

/-- R109: while KEY_VALID = 1 the keyed commands work with exactly the expansion of the current KEY
under the current KEYLEN; otherwise they raise NO_KEY. -/
def Obligations.KeyedCommandsUseTheCurrentKey : Prop :=
  ∀ s : State, s.engine.Inv →
    (s.engine.keyValid = true →
      exec .encrypt s = .next { s with engine := { s.engine with
        state := cipher s.engine.state (s.engine.keylen.toNat / 4 + 6)
          (expandedKey s.engine.keylen s.engine.key), err := 0 } } ∧
      exec .decrypt s = .next { s with engine := { s.engine with
        state := invCipher s.engine.state (s.engine.keylen.toNat / 4 + 6)
          (expandedKey s.engine.keylen s.engine.key), err := 0 } } ∧
      (∀ r : BitVec 4, r.toNat ≤ s.engine.keylen.toNat / 4 + 6 →
        exec (.addRoundKey r) s = .next { s with engine := { s.engine with
          state := addRoundKey s.engine.state (expandedKey s.engine.keylen s.engine.key) r.toNat,
          err := 0 } })) ∧
    (s.engine.keyValid = false → ∀ i : Instr, isKeyed i = true →
      exec i s = .next { s with engine := { s.engine with err := 2 } })

/-! ### EXPAND_KEY (41_key_schedule.md) -/

/-- R121: the round constants, each the double of the one before, the word XORed into byte 0 only, and
only the indices 1 to 10 used by the expansion. -/
def Obligations.RoundConstants : Prop :=
  rcon 1 = 0x01 ∧ (∀ j : Nat, 1 ≤ j → rcon (j + 1) = xtime (rcon j)) ∧
  (List.range' 1 10).map rcon = [0x01, 0x02, 0x04, 0x08, 0x10, 0x20, 0x40, 0x80, 0x1B, 0x36] ∧
  (∀ (j : Nat) (w : Word), w.xor (rconWord j) = ⟨w.a0 ^^^ rcon j, w.a1, w.a2, w.a3⟩) ∧
  (∀ nk i : Nat, nk = 4 ∨ nk = 6 ∨ nk = 8 → nk ≤ i → i < 4 * (nk + 6 + 1) →
    1 ≤ i / nk ∧ i / nk ≤ 10)

/-- R123: the schedule has 4(Nr + 1) words, the first Nk are the raw key, and each later one is
`w[i-Nk] ^ t` with R123's three cases for `t`. -/
def Obligations.KeyExpansionFollowsTheRecurrence : Prop :=
  ∀ (nk : Nat) (k : List Byte), nk = 4 ∨ nk = 6 ∨ nk = 8 → k.length = 4 * nk →
    let w := keyExpansion nk k
    w.length = 4 * (nk + 6 + 1) ∧
    (∀ i : Nat, i < nk → w[i]? =
      some ⟨k.getD (4 * i) 0, k.getD (4 * i + 1) 0, k.getD (4 * i + 2) 0, k.getD (4 * i + 3) 0⟩) ∧
    (∀ (i : Nat) (p q : Word), nk ≤ i → i < 4 * (nk + 6 + 1) →
      w[i - 1]? = some p → w[i - nk]? = some q →
      w[i]? = some (q.xor
        (if i % nk = 0 then
          (⟨sbox p.a1 ^^^ rcon (i / nk), sbox p.a2, sbox p.a3, sbox p.a0⟩ : Word)
         else if nk = 8 ∧ i % nk = 4 then ⟨sbox p.a0, sbox p.a1, sbox p.a2, sbox p.a3⟩
         else p)))

/-- EXPAND_KEY (R122, R124): with a legal KEYLEN, RK byte `j` is byte `j mod 4` of word `j div 4` of the
expansion of KEY[0 .. KEYLEN−1] and 0x00 past round key NR, NR is KEYLEN div 4 + 6, KEY_VALID is 1 and
ERR 0; round key 0 is the first 16 key bytes; with an illegal KEYLEN, KEY_VALID is 0, ERR is 1 and
nothing else changes; with ARG ≠ 0 only ERR and CMD change. -/
def Obligations.ExpandKeyDerivesTheRoundKeys : Prop :=
  decodeCommand 0x01 = .expandKey ∧
  (∀ s : State, s.engine.keylen = 0x10 ∨ s.engine.keylen = 0x18 ∨ s.engine.keylen = 0x20 →
    ∃ rk : RoundKeys,
      exec .expandKey s = .next { s with engine := { s.engine with
        rk := rk, nr := BitVec.ofNat 8 (s.engine.keylen.toNat / 4 + 6), keyValid := true, err := 0 } } ∧
      (∀ (j : Fin 240) (w : Word), j.val < 16 * (s.engine.keylen.toNat / 4 + 7) →
        (keyExpansion (s.engine.keylen.toNat / 4)
          (s.engine.key.toList.take s.engine.keylen.toNat))[j.val / 4]? = some w →
        rk[j] = [w.a0, w.a1, w.a2, w.a3].getD (j.val % 4) 0) ∧
      (∀ j : Fin 240, 16 * (s.engine.keylen.toNat / 4 + 7) ≤ j.val → rk[j] = 0x00) ∧
      (∀ k : Fin 16, rk[k.val] = s.engine.key[k.val])) ∧
  (∀ s : State, s.engine.keylen ≠ 0x10 → s.engine.keylen ≠ 0x18 → s.engine.keylen ≠ 0x20 →
    exec .expandKey s = .next { s with engine := { s.engine with keyValid := false, err := 1 } }) ∧
  (∀ (arg : BitVec 4) (s : State), arg ≠ 0 → exec (.hostWrite 0x000 (commandByte arg 0x1)) s =
    .next { s with engine := { s.engine with cmd := commandByte arg 0x1, err := 4 } })

/-- R238 with R27 and R122: KEY bytes at index KEYLEN and above do not affect the expansion. -/
def Obligations.KeyBytesPastTheLengthAreNotRead : Prop :=
  ∀ s s' : State, legalKeyLength s.engine.keylen = true → s'.engine.keylen = s.engine.keylen →
    (∀ k : Fin 32, k.val < s.engine.keylen.toNat → s'.engine.key[k] = s.engine.key[k]) →
    ∃ t t' : State, exec .expandKey s = .next t ∧ exec .expandKey s' = .next t' ∧
      t.engine.rk = t'.engine.rk ∧ t.engine.nr = t'.engine.nr ∧
      t.engine.key = s.engine.key ∧ t'.engine.key = s'.engine.key

/-- R127, with R72's reads column: key expansion depends on none of STATE, GFA, GFB and GFR and changes
none of them; a failed EXPAND_KEY leaves RK, and then every keyed command raises NO_KEY. -/
def Obligations.ExpandKeyIsIndependentOfState : Prop :=
  (∀ (s : State) (b : Block) (x y z : Byte), ∃ t : State, exec .expandKey s = .next t ∧
    exec .expandKey { s with engine := { s.engine with state := b, gfa := x, gfb := y, gfr := z } } =
      .next { t with engine := { t.engine with state := b, gfa := x, gfb := y, gfr := z } } ∧
    t.engine.state = s.engine.state ∧ t.engine.gfa = s.engine.gfa ∧
    t.engine.gfb = s.engine.gfb ∧ t.engine.gfr = s.engine.gfr) ∧
  (∀ s : State, legalKeyLength s.engine.keylen = false → ∃ t : State,
    exec .expandKey s = .next t ∧ t.engine.rk = s.engine.rk ∧
    ∀ i : Instr, isKeyed i = true →
      exec i t = .next { t with engine := { t.engine with err := 2 } })

/-! ### The round transforms (42_round_transforms.md) -/

/-- R140: SubBytes replaces every byte by its S-box entry, each byte an independent lane; Sbox is a
bijection and InvSbox its inverse. -/
def Obligations.SubBytesIsABytewiseBijection : Prop :=
  (∀ (b : Block) (k : Fin 16), (subBytes b)[k] = sbox b[k]) ∧
  Function.Bijective sbox ∧ (∀ v : Byte, invSbox (sbox v) = v ∧ sbox (invSbox v) = v)

/-- The construction R141 gives for its table: the inverse in GF(2^8), then the affine map. -/
def Obligations.SboxIsTheAffineImageOfTheInverse : Prop :=
  sbox 0x53 = 0xed ∧ sbox 0x00 = sboxAffine 0x00 ∧
  (∀ v u : Byte, gmul v u = 0x01 → sbox v = sboxAffine u)

/-- R151: Sbox is a bijection, has no fixed point and no opposite fixed point. -/
def Obligations.SboxHasNoFixedPoint : Prop :=
  Function.Bijective sbox ∧ (∀ v : Byte, sbox v ≠ v) ∧ (∀ v : Byte, sbox v ≠ v ^^^ 0xFF)

/-- SUB_BYTES and INV_SUB_BYTES (R142, R161) on STATE: every byte through the table, ERR 0, nothing
else, no key needed; ILLEGAL_CMD with ARG ≠ 0; the corner cases and the examples. -/
def Obligations.SubBytesCommands : Prop :=
  decodeCommand 0x04 = .subBytes ∧ decodeCommand 0x05 = .invSubBytes ∧
  (∀ s : State, ∃ b b' : Block,
    exec .subBytes s = .next { s with engine := { s.engine with state := b, err := 0 } } ∧
    exec .invSubBytes s = .next { s with engine := { s.engine with state := b', err := 0 } } ∧
    ∀ k : Fin 16, b[k] = sbox s.engine.state[k] ∧ b'[k] = invSbox s.engine.state[k]) ∧
  (∀ (arg op : BitVec 4) (s : State), arg ≠ 0 → op = 0x4 ∨ op = 0x5 →
    exec (.hostWrite 0x000 (commandByte arg op)) s =
      .next { s with engine := { s.engine with cmd := commandByte arg op, err := 4 } }) ∧
  subBytes (Vector.replicate 16 0x00) = Vector.replicate 16 0x63 ∧
  invSubBytes (Vector.replicate 16 0x00) = Vector.replicate 16 0x52 ∧
  invSubBytes (Vector.replicate 16 0x63) = Vector.replicate 16 0x00 ∧
  subBytes #v[0x19, 0x3d, 0xe3, 0xbe, 0xa0, 0xf4, 0xe2, 0x2b, 0x9a, 0xc6, 0x8d, 0x2a, 0xe9, 0xf8, 0x48, 0x08]
    = #v[0xd4, 0x27, 0x11, 0xae, 0xe0, 0xbf, 0x98, 0xf1, 0xb8, 0xb4, 0x5d, 0xe5, 0x1e, 0x41, 0x52, 0x30] ∧
  invSubBytes #v[0xd4, 0x27, 0x11, 0xae, 0xe0, 0xbf, 0x98, 0xf1, 0xb8, 0xb4, 0x5d, 0xe5, 0x1e, 0x41, 0x52, 0x30]
    = #v[0x19, 0x3d, 0xe3, 0xbe, 0xa0, 0xf4, 0xe2, 0x2b, 0x9a, 0xc6, 0x8d, 0x2a, 0xe9, 0xf8, 0x48, 0x08] ∧
  (∀ s : State, runInstrs [.subBytes, .invSubBytes] s =
    .next { s with engine := { s.engine with err := 0 } })

/-- R143 and R162: ShiftRows and InvShiftRows, row by row, inverses of each other, with the index tables
and examples of R145 and R164. -/
def Obligations.ShiftRowsMovesRowsLeft : Prop :=
  (∀ (b : Block) (r c : Fin 4),
    (shiftRows b)[4 * c.val + r.val] = b[4 * ((c.val + r.val) % 4) + r.val] ∧
    (invShiftRows b)[4 * ((c.val + r.val) % 4) + r.val] = b[4 * c.val + r.val]) ∧
  (∀ b : Block, shiftRows b = #v[b[0], b[5], b[10], b[15], b[4], b[9], b[14], b[3],
    b[8], b[13], b[2], b[7], b[12], b[1], b[6], b[11]]) ∧
  (∀ b : Block, invShiftRows b = #v[b[0], b[13], b[10], b[7], b[4], b[1], b[14], b[11],
    b[8], b[5], b[2], b[15], b[12], b[9], b[6], b[3]]) ∧
  (∀ b : Block, invShiftRows (shiftRows b) = b ∧ shiftRows (invShiftRows b) = b) ∧
  shiftRows #v[0x00, 0x01, 0x02, 0x03, 0x04, 0x05, 0x06, 0x07, 0x08, 0x09, 0x0a, 0x0b, 0x0c, 0x0d, 0x0e, 0x0f]
    = #v[0x00, 0x05, 0x0a, 0x0f, 0x04, 0x09, 0x0e, 0x03, 0x08, 0x0d, 0x02, 0x07, 0x0c, 0x01, 0x06, 0x0b] ∧
  invShiftRows #v[0x00, 0x01, 0x02, 0x03, 0x04, 0x05, 0x06, 0x07, 0x08, 0x09, 0x0a, 0x0b, 0x0c, 0x0d, 0x0e, 0x0f]
    = #v[0x00, 0x0d, 0x0a, 0x07, 0x04, 0x01, 0x0e, 0x0b, 0x08, 0x05, 0x02, 0x0f, 0x0c, 0x09, 0x06, 0x03]

/-- SHIFT_ROWS and INV_SHIFT_ROWS (R144, R163) on STATE, no key needed; ILLEGAL_CMD with ARG ≠ 0; equal
columns stay, four SHIFT_ROWS are the identity, so are SHIFT_ROWS and INV_SHIFT_ROWS, three are one
INV_SHIFT_ROWS; the examples. -/
def Obligations.ShiftRowsCommands : Prop :=
  decodeCommand 0x06 = .shiftRows ∧ decodeCommand 0x07 = .invShiftRows ∧
  (∀ s : State,
    exec .shiftRows s = .next { s with engine := { s.engine with
      state := shiftRows s.engine.state, err := 0 } } ∧
    exec .invShiftRows s = .next { s with engine := { s.engine with
      state := invShiftRows s.engine.state, err := 0 } } ∧
    runInstrs [.shiftRows, .shiftRows, .shiftRows, .shiftRows] s =
      .next { s with engine := { s.engine with err := 0 } } ∧
    runInstrs [.shiftRows, .invShiftRows] s =
      .next { s with engine := { s.engine with err := 0 } } ∧
    runInstrs [.shiftRows, .shiftRows, .shiftRows] s = exec .invShiftRows s) ∧
  (∀ (arg op : BitVec 4) (s : State), arg ≠ 0 → op = 0x6 ∨ op = 0x7 →
    exec (.hostWrite 0x000 (commandByte arg op)) s =
      .next { s with engine := { s.engine with cmd := commandByte arg op, err := 4 } }) ∧
  (∀ w : Word, shiftRows (ofColumns fun _ => w) = ofColumns fun _ => w) ∧
  (∀ w : Word, invShiftRows (ofColumns fun _ => w) = ofColumns fun _ => w) ∧
  shiftRows #v[0xd4, 0x27, 0x11, 0xae, 0xe0, 0xbf, 0x98, 0xf1, 0xb8, 0xb4, 0x5d, 0xe5, 0x1e, 0x41, 0x52, 0x30]
    = #v[0xd4, 0xbf, 0x5d, 0x30, 0xe0, 0xb4, 0x52, 0xae, 0xb8, 0x41, 0x11, 0xf1, 0x1e, 0x27, 0x98, 0xe5] ∧
  invShiftRows #v[0xd4, 0xbf, 0x5d, 0x30, 0xe0, 0xb4, 0x52, 0xae, 0xb8, 0x41, 0x11, 0xf1, 0x1e, 0x27, 0x98, 0xe5]
    = #v[0xd4, 0x27, 0x11, 0xae, 0xe0, 0xbf, 0x98, 0xf1, 0xb8, 0xb4, 0x5d, 0xe5, 0x1e, 0x41, 0x52, 0x30]

/-- R146: each column times M, spelled out row by row; `gmul(02, v)` and `gmul(03, v)`. -/
def Obligations.MixColumnsMultipliesColumnsByM : Prop :=
  (∀ (b : Block) (c : Fin 4),
    (mixColumns b)[4 * c.val] =
      gmul 0x02 b[4 * c.val] ^^^ gmul 0x03 b[4 * c.val + 1] ^^^ b[4 * c.val + 2] ^^^ b[4 * c.val + 3] ∧
    (mixColumns b)[4 * c.val + 1] =
      b[4 * c.val] ^^^ gmul 0x02 b[4 * c.val + 1] ^^^ gmul 0x03 b[4 * c.val + 2] ^^^ b[4 * c.val + 3] ∧
    (mixColumns b)[4 * c.val + 2] =
      b[4 * c.val] ^^^ b[4 * c.val + 1] ^^^ gmul 0x02 b[4 * c.val + 2] ^^^ gmul 0x03 b[4 * c.val + 3] ∧
    (mixColumns b)[4 * c.val + 3] =
      gmul 0x03 b[4 * c.val] ^^^ b[4 * c.val + 1] ^^^ b[4 * c.val + 2] ^^^ gmul 0x02 b[4 * c.val + 3]) ∧
  (∀ v : Byte, gmul 0x02 v = xtime v ∧ gmul 0x03 v = xtime v ^^^ v)

/-- R165: InvMixColumns multiplies each column by M', and undoes MixColumns on every block. -/
def Obligations.InvMixColumnsUndoesMixColumns : Prop :=
  (∀ (b : Block) (c : Fin 4),
    (invMixColumns b)[4 * c.val] =
      gmul 0x0e b[4 * c.val] ^^^ gmul 0x0b b[4 * c.val + 1] ^^^ gmul 0x0d b[4 * c.val + 2] ^^^
        gmul 0x09 b[4 * c.val + 3] ∧
    (invMixColumns b)[4 * c.val + 1] =
      gmul 0x09 b[4 * c.val] ^^^ gmul 0x0e b[4 * c.val + 1] ^^^ gmul 0x0b b[4 * c.val + 2] ^^^
        gmul 0x0d b[4 * c.val + 3] ∧
    (invMixColumns b)[4 * c.val + 2] =
      gmul 0x0d b[4 * c.val] ^^^ gmul 0x09 b[4 * c.val + 1] ^^^ gmul 0x0e b[4 * c.val + 2] ^^^
        gmul 0x0b b[4 * c.val + 3] ∧
    (invMixColumns b)[4 * c.val + 3] =
      gmul 0x0b b[4 * c.val] ^^^ gmul 0x0d b[4 * c.val + 1] ^^^ gmul 0x09 b[4 * c.val + 2] ^^^
        gmul 0x0e b[4 * c.val + 3]) ∧
  (∀ b : Block, invMixColumns (mixColumns b) = b) ∧
  gmul 0x0e 0x02 ^^^ gmul 0x0b 0x01 ^^^ gmul 0x0d 0x01 ^^^ gmul 0x09 0x03 = 0x01

/-- MIX_COLUMNS and INV_MIX_COLUMNS (R147, R166) on STATE, no key needed; ILLEGAL_CMD with ARG ≠ 0; a
column of four equal bytes stays; MIX_COLUMNS then INV_MIX_COLUMNS is the identity; the listed columns
and the examples. -/
def Obligations.MixColumnsCommands : Prop :=
  decodeCommand 0x08 = .mixColumns ∧ decodeCommand 0x09 = .invMixColumns ∧
  (∀ s : State,
    exec .mixColumns s = .next { s with engine := { s.engine with
      state := mixColumns s.engine.state, err := 0 } } ∧
    exec .invMixColumns s = .next { s with engine := { s.engine with
      state := invMixColumns s.engine.state, err := 0 } } ∧
    runInstrs [.mixColumns, .invMixColumns] s =
      .next { s with engine := { s.engine with err := 0 } }) ∧
  (∀ (arg op : BitVec 4) (s : State), arg ≠ 0 → op = 0x8 ∨ op = 0x9 →
    exec (.hostWrite 0x000 (commandByte arg op)) s =
      .next { s with engine := { s.engine with cmd := commandByte arg op, err := 4 } }) ∧
  (∀ v : Byte, matrixTimesColumn mixMatrix ⟨v, v, v, v⟩ = ⟨v, v, v, v⟩ ∧
    matrixTimesColumn invMixMatrix ⟨v, v, v, v⟩ = ⟨v, v, v, v⟩) ∧
  matrixTimesColumn mixMatrix ⟨0xdb, 0x13, 0x53, 0x45⟩ = ⟨0x8e, 0x4d, 0xa1, 0xbc⟩ ∧
  matrixTimesColumn mixMatrix ⟨0xd4, 0xd4, 0xd4, 0xd5⟩ = ⟨0xd5, 0xd5, 0xd7, 0xd6⟩ ∧
  matrixTimesColumn invMixMatrix ⟨0x8e, 0x4d, 0xa1, 0xbc⟩ = ⟨0xdb, 0x13, 0x53, 0x45⟩ ∧
  mixColumns #v[0xd4, 0xbf, 0x5d, 0x30, 0xe0, 0xb4, 0x52, 0xae, 0xb8, 0x41, 0x11, 0xf1, 0x1e, 0x27, 0x98, 0xe5]
    = #v[0x04, 0x66, 0x81, 0xe5, 0xe0, 0xcb, 0x19, 0x9a, 0x48, 0xf8, 0xd3, 0x7a, 0x28, 0x06, 0x26, 0x4c] ∧
  invMixColumns #v[0x04, 0x66, 0x81, 0xe5, 0xe0, 0xcb, 0x19, 0x9a, 0x48, 0xf8, 0xd3, 0x7a, 0x28, 0x06, 0x26, 0x4c]
    = #v[0xd4, 0xbf, 0x5d, 0x30, 0xe0, 0xb4, 0x52, 0xae, 0xb8, 0x41, 0x11, 0xf1, 0x1e, 0x27, 0x98, 0xe5]

/-- R148: AddRoundKey XORs round key `r` into the state, byte by byte, and is its own inverse. Round
keys 0 to 14 are those RK holds. -/
def Obligations.AddRoundKeyIsItsOwnInverse : Prop :=
  ∀ (b : Block) (rk : RoundKeys) (r : Fin 15),
    (∀ k : Fin 16, (addRoundKey b rk r.val)[k] = b[k] ^^^ rk[16 * r.val + k.val]) ∧
    addRoundKey (addRoundKey b rk r.val) rk r.val = b

/-- ADD_ROUND_KEY r (R149): with KEY_VALID = 1 and r ≤ NR the XOR, ERR 0 and nothing else; ROUND_RANGE
for r > NR and NO_KEY for KEY_VALID = 0, nothing else changing; no ARG is ILLEGAL_CMD; twice is the
identity. -/
def Obligations.AddRoundKeyCommand : Prop :=
  (∀ r : BitVec 4, decodeCommand (commandByte r 0xA) = .addRoundKey r) ∧
  (∀ (r : BitVec 4) (s : State), s.engine.keyValid = true → r.toNat ≤ s.engine.nr.toNat →
    exec (.addRoundKey r) s = .next { s with engine := { s.engine with
      state := addRoundKey s.engine.state s.engine.rk r.toNat, err := 0 } } ∧
    runInstrs [.addRoundKey r, .addRoundKey r] s =
      .next { s with engine := { s.engine with err := 0 } }) ∧
  (∀ (r : BitVec 4) (s : State), s.engine.keyValid = true → s.engine.nr.toNat < r.toNat →
    exec (.addRoundKey r) s = .next { s with engine := { s.engine with err := 3 } }) ∧
  (∀ (r : BitVec 4) (s : State), s.engine.keyValid = false →
    exec (.addRoundKey r) s = .next { s with engine := { s.engine with err := 2 } })

/-! ### Laws of the transforms (43_inverse_transforms.md) -/

/-- R167: the three inverse pairs, as functions on every block and as command pairs in either order,
which leave STATE unchanged and ERR = 0. -/
def Obligations.InversePairsCancel : Prop :=
  (∀ b : Block, invSubBytes (subBytes b) = b ∧ subBytes (invSubBytes b) = b ∧
    invShiftRows (shiftRows b) = b ∧ shiftRows (invShiftRows b) = b ∧
    invMixColumns (mixColumns b) = b ∧ mixColumns (invMixColumns b) = b) ∧
  (∀ s : State, ∀ p ∈ [(Instr.subBytes, Instr.invSubBytes), (.invSubBytes, .subBytes),
      (.shiftRows, .invShiftRows), (.invShiftRows, .shiftRows),
      (.mixColumns, .invMixColumns), (.invMixColumns, .mixColumns)],
    runInstrs [p.1, p.2] s = .next { s with engine := { s.engine with err := 0 } })

/-- R168: SubBytes commutes with ShiftRows and InvSubBytes with InvShiftRows, so the order of
INV_SHIFT_ROWS and INV_SUB_BYTES does not matter; MixColumns does not commute with ShiftRows. -/
def Obligations.ByteSubstitutionCommutesWithRowShifts : Prop :=
  (∀ b : Block, subBytes (shiftRows b) = shiftRows (subBytes b) ∧
    invSubBytes (invShiftRows b) = invShiftRows (invSubBytes b)) ∧
  (∀ s : State, ∃ t : State, runInstrs [.invShiftRows, .invSubBytes] s = .next t ∧
    runInstrs [.invSubBytes, .invShiftRows] s = .next t) ∧
  (∃ b : Block, mixColumns (shiftRows b) ≠ shiftRows (mixColumns b))

/-! ### GF(2^8) (44_gf_multiply.md) -/

/-- R180: multiplication by x, with its examples. -/
def Obligations.XtimeReducesOnOverflow : Prop :=
  (∀ a : Byte, a.getLsbD 7 = true → xtime a = (a <<< 1) ^^^ 0x1B) ∧
  (∀ a : Byte, a.getLsbD 7 = false → xtime a = a <<< 1) ∧
  xtime 0x57 = 0xae ∧ xtime 0x80 = 0x1b ∧ xtime 0x8d = 0x01 ∧ xtime 0xff = 0xe5 ∧ xtime 0x00 = 0x00

/-- R182: gmul is the product of polynomials reduced modulo 0x11B; commutative, associative,
distributive over XOR; its laws for 0, 1 and 2; and unique inverses. -/
def Obligations.GmulIsTheFieldProduct : Prop :=
  (∀ a b : Byte, gmul a b = polyProduct a b) ∧
  (∀ a b : Byte, gmul a b = gmul b a) ∧
  (∀ a b c : Byte, gmul (gmul a b) c = gmul a (gmul b c)) ∧
  (∀ a b c : Byte, gmul a (b ^^^ c) = gmul a b ^^^ gmul a c) ∧
  (∀ a : Byte, gmul a 0x00 = 0x00 ∧ gmul a 0x01 = a ∧ gmul a 0x02 = xtime a) ∧
  (∀ a : Byte, a ≠ 0 → ∃! b : Byte, gmul a b = 0x01) ∧
  gmul 0x53 0xca = 0x01

/-- R184: the constant multiples the transforms use, written with xtime. -/
def Obligations.ConstantMultiplesByXtime : Prop :=
  ∀ v : Byte,
    gmul 0x03 v = xtime v ^^^ v ∧
    gmul 0x09 v = xtime (xtime (xtime v)) ^^^ v ∧
    gmul 0x0b v = xtime (xtime (xtime v)) ^^^ xtime v ^^^ v ∧
    gmul 0x0d v = xtime (xtime (xtime v)) ^^^ xtime (xtime v) ^^^ v ∧
    gmul 0x0e v = xtime (xtime (xtime v)) ^^^ xtime (xtime v) ^^^ xtime v

/-- R183: GF_MUL writes the product of GFA and GFB to GFR and 0 to ERR, nothing else, needing no key;
ILLEGAL_CMD with ARG ≠ 0, GFR unchanged; swapping GFA and GFB does not change GFR; the corner cases and
the example. -/
def Obligations.GfMulCommand : Prop :=
  decodeCommand 0x0B = .gfMul ∧
  (∀ s : State, exec .gfMul s = .next { s with engine := { s.engine with
    gfr := gmul s.engine.gfa s.engine.gfb, err := 0 } }) ∧
  (∀ (arg : BitVec 4) (s : State), arg ≠ 0 → exec (.hostWrite 0x000 (commandByte arg 0xB)) s =
    .next { s with engine := { s.engine with cmd := commandByte arg 0xB, err := 4 } }) ∧
  (∀ a : Byte, gmul a 0x00 = 0x00 ∧ gmul 0x00 a = 0x00 ∧ gmul a 0x01 = a ∧ gmul 0x01 a = a) ∧
  (∀ a b : Byte, gmul a b = gmul b a) ∧
  gmul 0x80 0x80 = 0x9a ∧ gmul 0xff 0xff = 0x13 ∧ gmul 0x57 0x83 = 0xc1
end

