-- ==== Sys2Proof/Laws/Decode.lean ====
section
/-! SUPPORT. The fields of a command byte and of a transaction word, and what the command decoder can
answer. -/

namespace Sys2Proof

set_option Elab.async false

@[simp] theorem opField_commandByte (arg op : BitVec 4) : opField (commandByte arg op) = op := by
  revert arg op; decide +kernel

@[simp] theorem argField_commandByte (arg op : BitVec 4) : argField (commandByte arg op) = arg := by
  revert arg op; decide +kernel

@[simp] theorem commandByte_fields (v : Byte) : commandByte (argField v) (opField v) = v := by
  revert v; decide +kernel

/-- The decoder answers a command for every byte, never a host transaction. -/
theorem decodeCommand_isCommand (v : Byte) : (decodeCommand v).isCommand = true := by
  revert v; decide +kernel

/-- A byte that decodes as illegal carries itself. -/
theorem decodeCommand_illegal_eq {v b : Byte} (h : decodeCommand v = .illegalCmd b) : b = v := by
  have key : ∀ v : Byte, (match decodeCommand v with | .illegalCmd b => b == v | _ => true) = true := by
    decide +kernel
  have hv := key v
  rw [h] at hv
  exact eq_of_beq hv

/-- A byte decodes as illegal exactly when it is none of the 27 legal bytes. -/
theorem decodeCommand_illegal_iff (v : Byte) :
    decodeCommand v = .illegalCmd v ↔ legalByte v = false := by
  revert v; decide +kernel

/-- A nonzero ARG makes every command byte illegal but ADD_ROUND_KEY's. -/
theorem decodeCommand_commandByte_illegal {arg op : BitVec 4} (ha : arg ≠ 0) (ho : op ≠ 0xA) :
    decodeCommand (commandByte arg op) = .illegalCmd (commandByte arg op) := by
  revert arg op; decide +kernel

@[simp] theorem decodeCommand_addRoundKey (r : BitVec 4) :
    decodeCommand (commandByte r 0xA#4) = .addRoundKey r := by
  revert r; decide

/-- The signals of a word that carries given signals. -/
@[simp] theorem txnOfWord_wordOfTxn (t : Txn) : txnOfWord (wordOfTxn t) = t := by
  obtain ⟨w, off, data⟩ := t
  simp only [txnOfWord, wordOfTxn, Txn.mk.injEq]
  refine ⟨?_, ?_, ?_⟩
  · cases w <;> simp
  · ext i hi
    have h1 : 8 + i < 17 := by omega
    have h2 : 8 + i < 18 := by omega
    simp [BitVec.getElem_extractLsb', h1, h2, BitVec.getLsbD_eq_getElem hi]
  · ext i hi
    have : i < 17 := by omega
    have : i < 18 := by omega
    simp [BitVec.getElem_extractLsb', *]

/-- The word of the signals a word carries. -/
@[simp] theorem wordOfTxn_txnOfWord (w : BitVec 18) : wordOfTxn (txnOfWord w) = w := by
  apply BitVec.eq_of_getLsbD_eq
  intro i hi
  simp only [txnOfWord, wordOfTxn, BitVec.getLsbD_or, BitVec.getLsbD_shiftLeft,
    BitVec.getLsbD_setWidth, BitVec.getLsbD_extractLsb', BitVec.getLsbD_ofBool]
  rcases Nat.lt_or_ge i 8 with h | h
  · simp [h, hi, show i < 17 by omega]
  · rcases Nat.lt_or_ge i 17 with h' | h'
    · simp [h', hi, show ¬ i < 8 by omega, show i - 8 < 9 by omega, show i - 8 < 18 by omega,
        show 8 + (i - 8) = i by omega]
    · obtain rfl : i = 17 := by omega
      simp

namespace Machine

/-- Executing a command byte is executing the instruction it decodes to. -/
theorem executeCommand_eq_exec (v : Byte) (s : State) :
    executeCommand v s = exec (decodeCommand v) s := by
  have h := decodeCommand_isCommand v
  unfold executeCommand
  cases hd : decodeCommand v <;> first | rfl | simp [hd, Instr.isCommand] at h

end Machine

end Sys2Proof
end

