-- ==== Sys2Proof/Laws/Operands.lean ====
section
/-! SUPPORT. The address map: which register each offset selects, and which offset a register has
(20_memory.md rule R52). -/

namespace Sys2Proof.Machine

set_option Elab.async false

/-- The first offset of a register's bytes plus the byte's index; none for a reserved offset. -/
def regOffset : Reg → Option Nat
  | .cmd => some 0x000
  | .status => some 0x001
  | .keylen => some 0x002
  | .nr => some 0x003
  | .gfa => some 0x004
  | .gfb => some 0x005
  | .gfr => some 0x006
  | .state k => some (0x010 + k.val)
  | .key k => some (0x020 + k.val)
  | .rk j => some (0x100 + j.val)
  | .reserved => none

@[simp] theorem selectReg_cmd : selectReg 0x000#9 = .cmd := by decide
@[simp] theorem selectReg_status : selectReg 0x001#9 = .status := by decide
@[simp] theorem selectReg_keylen : selectReg 0x002#9 = .keylen := by decide
@[simp] theorem selectReg_nr : selectReg 0x003#9 = .nr := by decide
@[simp] theorem selectReg_gfa : selectReg 0x004#9 = .gfa := by decide
@[simp] theorem selectReg_gfb : selectReg 0x005#9 = .gfb := by decide
@[simp] theorem selectReg_gfr : selectReg 0x006#9 = .gfr := by decide

@[simp] theorem selectReg_state (k : Fin 16) :
    selectReg (BitVec.ofNat 9 (0x010 + k.val)) = .state k := by
  revert k; decide +kernel

@[simp] theorem selectReg_key (k : Fin 32) :
    selectReg (BitVec.ofNat 9 (0x020 + k.val)) = .key k := by
  revert k; decide +kernel

@[simp] theorem selectReg_rk (j : Fin 240) :
    selectReg (BitVec.ofNat 9 (0x100 + j.val)) = .rk j := by
  revert j; decide +kernel

/-- An offset selects a register only at that register's place in the map. -/
theorem regOffset_selectReg (off : Offset) :
    regOffset (selectReg off) = if reservedOffset off then none else some off.toNat := by
  revert off; decide +kernel

/-- Two offsets select the same register byte only if they are the same offset. -/
theorem selectReg_inj {a b : Offset} (h : selectReg a = selectReg b)
    (ha : reservedOffset a = false) : a = b := by
  have ea := regOffset_selectReg a
  have eb := regOffset_selectReg b
  rw [h, eb] at ea
  rw [ha] at ea
  cases hb : reservedOffset b <;> simp [hb] at ea
  exact BitVec.eq_of_toNat_eq ea.symm

/-- The reserved offsets are those that select no register. -/
theorem selectReg_reserved_iff (off : Offset) :
    selectReg off = .reserved ↔ reservedOffset off = true := by
  revert off; decide +kernel

/-! ### The offset of each single-byte register, and the window of each register file -/

theorem selectReg_eq_cmd_iff (off : Offset) : selectReg off = .cmd ↔ off = 0x000#9 :=
  ⟨fun h => (selectReg_inj (selectReg_cmd.trans h.symm) (by decide)).symm, fun h => h ▸ selectReg_cmd⟩

theorem selectReg_eq_status_iff (off : Offset) : selectReg off = .status ↔ off = 0x001#9 :=
  ⟨fun h => (selectReg_inj (selectReg_status.trans h.symm) (by decide)).symm, fun h => h ▸ selectReg_status⟩

theorem selectReg_eq_keylen_iff (off : Offset) : selectReg off = .keylen ↔ off = 0x002#9 :=
  ⟨fun h => (selectReg_inj (selectReg_keylen.trans h.symm) (by decide)).symm, fun h => h ▸ selectReg_keylen⟩

theorem selectReg_eq_nr_iff (off : Offset) : selectReg off = .nr ↔ off = 0x003#9 :=
  ⟨fun h => (selectReg_inj (selectReg_nr.trans h.symm) (by decide)).symm, fun h => h ▸ selectReg_nr⟩

theorem selectReg_eq_gfa_iff (off : Offset) : selectReg off = .gfa ↔ off = 0x004#9 :=
  ⟨fun h => (selectReg_inj (selectReg_gfa.trans h.symm) (by decide)).symm, fun h => h ▸ selectReg_gfa⟩

theorem selectReg_eq_gfb_iff (off : Offset) : selectReg off = .gfb ↔ off = 0x005#9 :=
  ⟨fun h => (selectReg_inj (selectReg_gfb.trans h.symm) (by decide)).symm, fun h => h ▸ selectReg_gfb⟩

theorem selectReg_eq_gfr_iff (off : Offset) : selectReg off = .gfr ↔ off = 0x006#9 :=
  ⟨fun h => (selectReg_inj (selectReg_gfr.trans h.symm) (by decide)).symm, fun h => h ▸ selectReg_gfr⟩

theorem stateWindow_of_selectReg {off : Offset} {k : Fin 16} (h : selectReg off = .state k) :
    stateWindow off = true := by
  have := regOffset_selectReg off
  rw [h] at this
  cases hr : reservedOffset off <;> rw [hr] at this <;> simp [regOffset] at this
  simp only [stateWindow, decide_eq_true_eq]
  omega

theorem keyWindow_of_selectReg {off : Offset} {k : Fin 32} (h : selectReg off = .key k) :
    keyWindow off = true := by
  have := regOffset_selectReg off
  rw [h] at this
  cases hr : reservedOffset off <;> rw [hr] at this <;> simp [regOffset] at this
  simp only [keyWindow, decide_eq_true_eq]
  omega

theorem rkWindow_of_selectReg {off : Offset} {k : Fin 240} (h : selectReg off = .rk k) :
    rkWindow off = true := by
  have := regOffset_selectReg off
  rw [h] at this
  cases hr : reservedOffset off <;> rw [hr] at this <;> simp [regOffset] at this
  simp only [rkWindow, decide_eq_true_eq]
  omega

/-- The STATE window is the offsets that select a byte of STATE. -/
theorem stateWindow_iff (off : Offset) :
    stateWindow off = true ↔ ∃ k : Fin 16, off = BitVec.ofNat 9 (0x010 + k.val) := by
  simp only [stateWindow, decide_eq_true_eq]
  constructor
  · intro h
    exact ⟨⟨off.toNat - 0x010, by omega⟩, BitVec.eq_of_toNat_eq (by simp; omega)⟩
  · rintro ⟨k, rfl⟩
    simp; omega

/-- The KEY window is the offsets that select a byte of KEY. -/
theorem keyWindow_iff (off : Offset) :
    keyWindow off = true ↔ ∃ k : Fin 32, off = BitVec.ofNat 9 (0x020 + k.val) := by
  simp only [keyWindow, decide_eq_true_eq]
  constructor
  · intro h
    exact ⟨⟨off.toNat - 0x020, by omega⟩, BitVec.eq_of_toNat_eq (by simp; omega)⟩
  · rintro ⟨k, rfl⟩
    simp; omega

/-- The RK window is the offsets that select a byte of RK. -/
theorem rkWindow_iff (off : Offset) :
    rkWindow off = true ↔ ∃ j : Fin 240, off = BitVec.ofNat 9 (0x100 + j.val) := by
  simp only [rkWindow, decide_eq_true_eq]
  constructor
  · intro h
    exact ⟨⟨off.toNat - 0x100, by omega⟩, BitVec.eq_of_toNat_eq (by simp; omega)⟩
  · rintro ⟨j, rfl⟩
    simp; omega

/-- The legal key lengths, one by one (R7). -/
theorem legalKeyLength_iff (keylen : Byte) :
    legalKeyLength keylen = true ↔ keylen = 0x10 ∨ keylen = 0x18 ∨ keylen = 0x20 := by
  revert keylen; decide +kernel

@[simp] theorem roundIndex_toNat (r : BitVec 4) : (roundIndex r).toNat = r.toNat := by
  revert r; decide

end Sys2Proof.Machine
end

