-- ==== Sys2Proof/Laws/State.lean ====
section
/-! SUPPORT. One lemma per field for each update of the state and of the engine, all true by
unfolding the update, so that later proofs need not unfold one. -/

namespace Sys2Proof.Machine

/-! ### The machine's own updates -/

@[simp] theorem State.withEngine_engine (s : State) (e : Engine) : (s.withEngine e).engine = e := rfl
@[simp] theorem State.withEngine_pending (s : State) (e : Engine) : (s.withEngine e).pending = s.pending := rfl
@[simp] theorem State.withEngine_returned (s : State) (e : Engine) : (s.withEngine e).returned = s.returned := rfl

@[simp] theorem State.consume_engine (s : State) (rest : List PortInput) : (s.consume rest).engine = s.engine := rfl
@[simp] theorem State.consume_pending (s : State) (rest : List PortInput) : (s.consume rest).pending = rest := rfl
@[simp] theorem State.consume_returned (s : State) (rest : List PortInput) : (s.consume rest).returned = s.returned := rfl

@[simp] theorem State.answer_engine (s : State) (v : Byte) : (s.answer v).engine = s.engine := rfl
@[simp] theorem State.answer_pending (s : State) (v : Byte) : (s.answer v).pending = s.pending := rfl
@[simp] theorem State.answer_returned (s : State) (v : Byte) : (s.answer v).returned = s.returned ++ [v] := rfl

@[simp] theorem State.place_engine (s : State) (i : PortInput) : (s.place i).engine = s.engine := rfl
@[simp] theorem State.place_pending (s : State) (i : PortInput) : (s.place i).pending = i :: s.pending := rfl
@[simp] theorem State.place_returned (s : State) (i : PortInput) : (s.place i).returned = s.returned := rfl

@[simp] theorem State.assertReset_engine (s : State) : s.assertReset.engine = Engine.reset := rfl
@[simp] theorem State.assertReset_pending (s : State) : s.assertReset.pending = s.pending := rfl
@[simp] theorem State.assertReset_returned (s : State) : s.assertReset.returned = s.returned := rfl

@[simp] theorem State.withEngine_withEngine (s : State) (e e' : Engine) :
    (s.withEngine e).withEngine e' = s.withEngine e' := rfl
@[simp] theorem State.withEngine_self (s : State) : s.withEngine s.engine = s := rfl

/-! ### The engine's updates -/

@[simp] theorem Engine.ok_cmd (e : Engine) : e.ok.cmd = e.cmd := rfl
@[simp] theorem Engine.ok_err (e : Engine) : e.ok.err = 0 := rfl
@[simp] theorem Engine.ok_keyValid (e : Engine) : e.ok.keyValid = e.keyValid := rfl
@[simp] theorem Engine.ok_keylen (e : Engine) : e.ok.keylen = e.keylen := rfl
@[simp] theorem Engine.ok_nr (e : Engine) : e.ok.nr = e.nr := rfl
@[simp] theorem Engine.ok_gfa (e : Engine) : e.ok.gfa = e.gfa := rfl
@[simp] theorem Engine.ok_gfb (e : Engine) : e.ok.gfb = e.gfb := rfl
@[simp] theorem Engine.ok_gfr (e : Engine) : e.ok.gfr = e.gfr := rfl
@[simp] theorem Engine.ok_state (e : Engine) : e.ok.state = e.state := rfl
@[simp] theorem Engine.ok_key (e : Engine) : e.ok.key = e.key := rfl
@[simp] theorem Engine.ok_rk (e : Engine) : e.ok.rk = e.rk := rfl

@[simp] theorem Engine.raise_cmd (e : Engine) (c : CmdError) : (e.raise c).cmd = e.cmd := rfl
@[simp] theorem Engine.raise_err (e : Engine) (c : CmdError) : (e.raise c).err = c.code := rfl
@[simp] theorem Engine.raise_keyValid (e : Engine) (c : CmdError) :
    (e.raise c).keyValid = e.keyValid := rfl
@[simp] theorem Engine.raise_keylen (e : Engine) (c : CmdError) :
    (e.raise c).keylen = e.keylen := rfl
@[simp] theorem Engine.raise_nr (e : Engine) (c : CmdError) : (e.raise c).nr = e.nr := rfl
@[simp] theorem Engine.raise_gfa (e : Engine) (c : CmdError) : (e.raise c).gfa = e.gfa := rfl
@[simp] theorem Engine.raise_gfb (e : Engine) (c : CmdError) : (e.raise c).gfb = e.gfb := rfl
@[simp] theorem Engine.raise_gfr (e : Engine) (c : CmdError) : (e.raise c).gfr = e.gfr := rfl
@[simp] theorem Engine.raise_state (e : Engine) (c : CmdError) : (e.raise c).state = e.state := rfl
@[simp] theorem Engine.raise_key (e : Engine) (c : CmdError) : (e.raise c).key = e.key := rfl
@[simp] theorem Engine.raise_rk (e : Engine) (c : CmdError) : (e.raise c).rk = e.rk := rfl

@[simp] theorem Engine.clearKeyValid_cmd (e : Engine) : e.clearKeyValid.cmd = e.cmd := rfl
@[simp] theorem Engine.clearKeyValid_err (e : Engine) : e.clearKeyValid.err = e.err := rfl
@[simp] theorem Engine.clearKeyValid_keyValid (e : Engine) :
    e.clearKeyValid.keyValid = false := rfl
@[simp] theorem Engine.clearKeyValid_keylen (e : Engine) : e.clearKeyValid.keylen = e.keylen := rfl
@[simp] theorem Engine.clearKeyValid_nr (e : Engine) : e.clearKeyValid.nr = e.nr := rfl
@[simp] theorem Engine.clearKeyValid_gfa (e : Engine) : e.clearKeyValid.gfa = e.gfa := rfl
@[simp] theorem Engine.clearKeyValid_gfb (e : Engine) : e.clearKeyValid.gfb = e.gfb := rfl
@[simp] theorem Engine.clearKeyValid_gfr (e : Engine) : e.clearKeyValid.gfr = e.gfr := rfl
@[simp] theorem Engine.clearKeyValid_state (e : Engine) : e.clearKeyValid.state = e.state := rfl
@[simp] theorem Engine.clearKeyValid_key (e : Engine) : e.clearKeyValid.key = e.key := rfl
@[simp] theorem Engine.clearKeyValid_rk (e : Engine) : e.clearKeyValid.rk = e.rk := rfl

@[simp] theorem Engine.setKeyValid_cmd (e : Engine) : e.setKeyValid.cmd = e.cmd := rfl
@[simp] theorem Engine.setKeyValid_err (e : Engine) : e.setKeyValid.err = e.err := rfl
@[simp] theorem Engine.setKeyValid_keyValid (e : Engine) : e.setKeyValid.keyValid = true := rfl
@[simp] theorem Engine.setKeyValid_keylen (e : Engine) : e.setKeyValid.keylen = e.keylen := rfl
@[simp] theorem Engine.setKeyValid_nr (e : Engine) : e.setKeyValid.nr = e.nr := rfl
@[simp] theorem Engine.setKeyValid_gfa (e : Engine) : e.setKeyValid.gfa = e.gfa := rfl
@[simp] theorem Engine.setKeyValid_gfb (e : Engine) : e.setKeyValid.gfb = e.gfb := rfl
@[simp] theorem Engine.setKeyValid_gfr (e : Engine) : e.setKeyValid.gfr = e.gfr := rfl
@[simp] theorem Engine.setKeyValid_state (e : Engine) : e.setKeyValid.state = e.state := rfl
@[simp] theorem Engine.setKeyValid_key (e : Engine) : e.setKeyValid.key = e.key := rfl
@[simp] theorem Engine.setKeyValid_rk (e : Engine) : e.setKeyValid.rk = e.rk := rfl

@[simp] theorem Engine.installKey_cmd (e : Engine) : e.installKey.cmd = e.cmd := rfl
@[simp] theorem Engine.installKey_err (e : Engine) : e.installKey.err = e.err := rfl
@[simp] theorem Engine.installKey_keyValid (e : Engine) : e.installKey.keyValid = true := rfl
@[simp] theorem Engine.installKey_keylen (e : Engine) : e.installKey.keylen = e.keylen := rfl
@[simp] theorem Engine.installKey_nr (e : Engine) :
    e.installKey.nr = BitVec.ofNat 8 (nrOf (nkOf e.keylen)) := rfl
@[simp] theorem Engine.installKey_gfa (e : Engine) : e.installKey.gfa = e.gfa := rfl
@[simp] theorem Engine.installKey_gfb (e : Engine) : e.installKey.gfb = e.gfb := rfl
@[simp] theorem Engine.installKey_gfr (e : Engine) : e.installKey.gfr = e.gfr := rfl
@[simp] theorem Engine.installKey_state (e : Engine) : e.installKey.state = e.state := rfl
@[simp] theorem Engine.installKey_key (e : Engine) : e.installKey.key = e.key := rfl
@[simp] theorem Engine.installKey_rk (e : Engine) :
    e.installKey.rk = expandedKey e.keylen e.key := rfl

/-! ### Reset -/

@[simp] theorem Engine.reset_cmd : Engine.reset.cmd = 0x00 := rfl
@[simp] theorem Engine.reset_err : Engine.reset.err = 0 := rfl
@[simp] theorem Engine.reset_keyValid : Engine.reset.keyValid = false := rfl
@[simp] theorem Engine.reset_keylen : Engine.reset.keylen = 0x00 := rfl
@[simp] theorem Engine.reset_nr : Engine.reset.nr = 0x00 := rfl
@[simp] theorem Engine.reset_gfa : Engine.reset.gfa = 0x00 := rfl
@[simp] theorem Engine.reset_gfb : Engine.reset.gfb = 0x00 := rfl
@[simp] theorem Engine.reset_gfr : Engine.reset.gfr = 0x00 := rfl
@[simp] theorem Engine.reset_state : Engine.reset.state = Vector.replicate 16 0x00 := rfl
@[simp] theorem Engine.reset_key : Engine.reset.key = Vector.replicate 32 0x00 := rfl
@[simp] theorem Engine.reset_rk : Engine.reset.rk = Vector.replicate 240 0x00 := rfl
@[simp] theorem State.reset_engine : State.reset.engine = Engine.reset := rfl
@[simp] theorem State.reset_pending : State.reset.pending = [] := rfl
@[simp] theorem State.reset_returned : State.reset.returned = [] := rfl

end Sys2Proof.Machine
end

