-- ==== Sys2Proof/Laws/Ops.lean ====
section
/-! SUPPORT. What each shared operation answers, once: the operation's whole effect as one next
state, for the proofs to cite instead of unfolding it. -/

namespace Sys2Proof.Machine

theorem finishOk_eq (e : Engine) (s : State) : finishOk e s = .next (s.withEngine e.ok) := rfl

theorem raiseCmdError_eq (c : CmdError) (e : Engine) (s : State) :
    raiseCmdError c e s = .next (s.withEngine (e.raise c)) := rfl

theorem transformState_eq (f : Block → Block) (s : State) :
    transformState f s =
      .next (s.withEngine { s.engine with state := f s.engine.state, err := 0 }) := rfl

theorem requireKey_of_valid {s : State} (h : s.engine.keyValid = true) (run : Result) :
    requireKey s run = run := by simp [requireKey, h]

theorem requireKey_of_invalid {s : State} (h : s.engine.keyValid = false) (run : Result) :
    requireKey s run = .next (s.withEngine (s.engine.raise .noKey)) := by
  simp [requireKey, h, raiseCmdError_eq]

/-- ADD_ROUND_KEY with a valid key and a round in range. -/
theorem execAddRoundKey_of_le {s : State} {r : BitVec 4} (h : s.engine.keyValid = true)
    (hr : r.toNat ≤ s.engine.nr.toNat) :
    execAddRoundKey r s = .next (s.withEngine { s.engine with
      state := addRoundKey s.engine.state s.engine.rk r.toNat, err := 0 }) := by
  have : ¬ s.engine.nr < roundIndex r := by simp [BitVec.lt_def]; omega
  simp [execAddRoundKey, requireKey_of_valid h, this, transformState_eq]

/-- ADD_ROUND_KEY with a valid key and a round beyond NR. -/
theorem execAddRoundKey_of_lt {s : State} {r : BitVec 4} (h : s.engine.keyValid = true)
    (hr : s.engine.nr.toNat < r.toNat) :
    execAddRoundKey r s = .next (s.withEngine (s.engine.raise .roundRange)) := by
  have : s.engine.nr < roundIndex r := by simpa [BitVec.lt_def] using hr
  simp [execAddRoundKey, requireKey_of_valid h, this, raiseCmdError_eq]

/-- A host write away from CMD. -/
theorem execHostWrite_of_ne {off : Offset} (h : off ≠ 0x000) (v : Byte) (s : State) :
    execHostWrite off v s = .next (s.withEngine (s.engine.storeByte off v)) := by
  exact if_neg h

/-- A host write at CMD. -/
theorem execHostWrite_cmd (v : Byte) (s : State) :
    execHostWrite 0x000 v s = executeCommand v (s.withEngine { s.engine with cmd := v }) := rfl

/-- A byte of RK within the store. -/
theorem roundKeyByte_of_lt (rk : RoundKeys) {j : Nat} (h : j < 240) : roundKeyByte rk j = rk[j] := by
  simp [roundKeyByte, h]

/-- The state after reset input. -/
theorem assertReset_eq (s : State) : s.assertReset = s.withEngine Engine.reset := rfl

/-! ### Register bytes -/

@[simp] theorem byteAt_cmd (e : Engine) : e.byteAt 0x000#9 = e.cmd := rfl
@[simp] theorem byteAt_status (e : Engine) : e.byteAt 0x001#9 = statusByte e.keyValid e.err := rfl
@[simp] theorem byteAt_keylen (e : Engine) : e.byteAt 0x002#9 = e.keylen := rfl
@[simp] theorem byteAt_nr (e : Engine) : e.byteAt 0x003#9 = e.nr := rfl
@[simp] theorem byteAt_gfa (e : Engine) : e.byteAt 0x004#9 = e.gfa := rfl
@[simp] theorem byteAt_gfb (e : Engine) : e.byteAt 0x005#9 = e.gfb := rfl
@[simp] theorem byteAt_gfr (e : Engine) : e.byteAt 0x006#9 = e.gfr := rfl

@[simp] theorem byteAt_state (e : Engine) (k : Fin 16) :
    e.byteAt (BitVec.ofNat 9 (0x010 + k.val)) = e.state[k] := by
  unfold Engine.byteAt; rw [selectReg_state]

@[simp] theorem byteAt_key (e : Engine) (k : Fin 32) :
    e.byteAt (BitVec.ofNat 9 (0x020 + k.val)) = e.key[k] := by
  unfold Engine.byteAt; rw [selectReg_key]

@[simp] theorem byteAt_rk (e : Engine) (j : Fin 240) :
    e.byteAt (BitVec.ofNat 9 (0x100 + j.val)) = e.rk[j] := by
  unfold Engine.byteAt; rw [selectReg_rk]

theorem byteAt_reserved (e : Engine) {off : Offset} (h : reservedOffset off = true) :
    e.byteAt off = 0x00 := by
  unfold Engine.byteAt; rw [(selectReg_reserved_iff off).2 h]

/-- STATUS determines both of its fields. -/
theorem statusByte_inj {k k' : Bool} {x x' : BitVec 3} (h : statusByte k x = statusByte k' x') :
    k = k' ∧ x = x' := by
  revert k k' x x'; decide +kernel

/-- A store reaches no byte but its own, and KEY_VALID where the offset is KEYLEN's or KEY's. -/
theorem byteAt_storeByte_of_ne {off other : Offset} (v : Byte) (e : Engine) (h : other ≠ off)
    (hs : other ≠ 0x001) : (e.storeByte off v).byteAt other = e.byteAt other := by
  have hsel : reservedOffset other = false → selectReg other ≠ selectReg off :=
    fun hr he => h (selectReg_inj he hr)
  have hst : selectReg other ≠ .status := by
    intro he
    have := selectReg_inj (b := 0x001#9) (by simpa using he)
      (by cases hr : reservedOffset other
          · rfl
          · rw [(selectReg_reserved_iff other).2 hr] at he; exact absurd he (by decide))
    exact hs this
  unfold Engine.storeByte Engine.byteAt
  cases ho : selectReg other with
  | reserved => cases selectReg off <;> rfl
  | status => exact absurd ho hst
  | _ =>
    have hne := hsel (by
      cases hr : reservedOffset other
      · rfl
      · rw [(selectReg_reserved_iff other).2 hr] at ho; exact absurd ho (by simp))
    rw [ho] at hne
    cases hf : selectReg off <;> rw [hf] at hne <;>
      first
      | rfl
      | exact absurd rfl hne
      | (simp only [ne_eq, Reg.state.injEq, Reg.key.injEq] at hne
         simp [Engine.clearKeyValid, Ne.symm hne, Fin.val_inj])

end Sys2Proof.Machine
end

