-- ==== Sys2Proof/Laws/Effects.lean ====
section
/-! SUPPORT. What an instruction can do, said once: every instruction answers a next state, whose
engine is a function of the engine before it, and touches the host's side only by the byte a read
returns. Proofs about `exec` and `step` cite `exec_eq` instead of unfolding the meanings. -/

namespace Sys2Proof.Machine

/-- The engine after a command, with CMD already written (30_encoding.md rule R70). -/
def commandEffect : Instr → Engine → Engine
  | .nop, e => e.ok
  | .expandKey, e =>
    if legalKeyLength e.keylen then e.installKey.ok else e.clearKeyValid.raise .keyLength
  | .encrypt, e =>
    if e.keyValid then { e with state := cipher e.state e.nr.toNat e.rk, err := 0 }
    else e.raise .noKey
  | .decrypt, e =>
    if e.keyValid then { e with state := invCipher e.state e.nr.toNat e.rk, err := 0 }
    else e.raise .noKey
  | .subBytes, e => { e with state := subBytes e.state, err := 0 }
  | .invSubBytes, e => { e with state := invSubBytes e.state, err := 0 }
  | .shiftRows, e => { e with state := shiftRows e.state, err := 0 }
  | .invShiftRows, e => { e with state := invShiftRows e.state, err := 0 }
  | .mixColumns, e => { e with state := mixColumns e.state, err := 0 }
  | .invMixColumns, e => { e with state := invMixColumns e.state, err := 0 }
  | .addRoundKey r, e =>
    if e.keyValid then
      if e.nr < roundIndex r then e.raise .roundRange
      else { e with state := addRoundKey e.state e.rk (roundIndex r).toNat, err := 0 }
    else e.raise .noKey
  | .gfMul, e => { e with gfr := gmul e.gfa e.gfb, err := 0 }
  | .illegalCmd _, e => e.raise .illegalCmd
  | .hostWrite _ _, e => e
  | .hostRead _, e => e

/-- The engine after an instruction. -/
def instrEffect : Instr → Engine → Engine
  | .hostWrite off v, e =>
    if off = 0x000 then commandEffect (decodeCommand v) { e with cmd := v } else e.storeByte off v
  | .hostRead _, e => e
  | .nop, e => commandEffect .nop e
  | .expandKey, e => commandEffect .expandKey e
  | .encrypt, e => commandEffect .encrypt e
  | .decrypt, e => commandEffect .decrypt e
  | .subBytes, e => commandEffect .subBytes e
  | .invSubBytes, e => commandEffect .invSubBytes e
  | .shiftRows, e => commandEffect .shiftRows e
  | .invShiftRows, e => commandEffect .invShiftRows e
  | .mixColumns, e => commandEffect .mixColumns e
  | .invMixColumns, e => commandEffect .invMixColumns e
  | .addRoundKey r, e => commandEffect (.addRoundKey r) e
  | .gfMul, e => commandEffect .gfMul e
  | .illegalCmd v, e => commandEffect (.illegalCmd v) e

/-- The bytes an instruction returns to the host. -/
def bytesReturned : Instr → Engine → List Byte
  | .hostRead off, e => [e.byteAt off]
  | _, _ => []

/-- A command answers a next state, in which only the engine has changed. -/
theorem exec_command_eq {i : Instr} (h : i.isCommand = true) (s : State) :
    exec i s = .next (s.withEngine (commandEffect i s.engine)) := by
  cases i with
  | hostWrite off v => simp [Instr.isCommand] at h
  | hostRead off => simp [Instr.isCommand] at h
  | expandKey =>
    simp only [exec, execExpandKey, commandEffect]
    split <;> rfl
  | encrypt =>
    simp only [exec, execEncrypt, requireKey, commandEffect]
    split <;> rfl
  | decrypt =>
    simp only [exec, execDecrypt, requireKey, commandEffect]
    split <;> rfl
  | addRoundKey r =>
    simp only [exec, execAddRoundKey, requireKey, commandEffect]
    split
    · split <;> rfl
    · rfl
  | _ => rfl

/-- A CMD write is the command the byte names, run with the byte in CMD. -/
theorem exec_cmdWrite_eq (v : Byte) (s : State) :
    exec (.hostWrite 0x000 v) s = exec (decodeCommand v) (s.withEngine { s.engine with cmd := v }) := by
  show execHostWrite _ _ _ = _
  rw [execHostWrite_cmd, executeCommand_eq_exec]

/-- A host write away from CMD stores its byte. -/
theorem exec_hostWrite_of_ne {off : Offset} (h : off ≠ 0x000) (v : Byte) (s : State) :
    exec (.hostWrite off v) s = .next (s.withEngine (s.engine.storeByte off v)) :=
  execHostWrite_of_ne h v s

/-- Everything an instruction can do. -/
theorem exec_eq (i : Instr) (s : State) :
    exec i s = .next
      { engine := instrEffect i s.engine
        pending := s.pending
        returned := s.returned ++ bytesReturned i s.engine } := by
  cases i with
  | hostWrite off v =>
    by_cases h : off = 0x000
    · subst h
      rw [exec_cmdWrite_eq, exec_command_eq (decodeCommand_isCommand v)]
      simp [instrEffect, bytesReturned, State.withEngine]
    · rw [exec_hostWrite_of_ne h]
      have h' : ¬ off = 0#9 := h
      simp [instrEffect, bytesReturned, State.withEngine, h']
  | hostRead off => rfl
  | _ =>
    rw [exec_command_eq rfl]
    simp [instrEffect, bytesReturned, State.withEngine]

/-- Everything a step can do. -/
theorem step_cases {s t : State} (h : step s = .next t) :
    (s.pending = [] ∧ t = s) ∨
    (∃ rest, s.pending = .reset :: rest ∧ t = (s.consume rest).assertReset) ∨
    (∃ x rest, s.pending = .txn x :: rest ∧
      t = { engine := instrEffect (decodeSignals x) s.engine
            pending := rest
            returned := s.returned ++ bytesReturned (decodeSignals x) s.engine }) := by
  unfold step at h
  split at h
  · rename_i hp
    exact .inl ⟨hp, by injection h with h; exact h.symm⟩
  · rename_i rest hp
    exact .inr (.inl ⟨rest, hp, by injection h with h; exact h.symm⟩)
  · rename_i x rest hp
    refine .inr (.inr ⟨x, rest, hp, ?_⟩)
    rw [exec_eq] at h
    injection h with h
    exact h.symm

end Sys2Proof.Machine
end

