-- ==== Sys2Proof/Laws/KeySchedule.lean ====
section
/-! SUPPORT. What a successful key expansion leaves: the zero tail of RK and the engine's invariant
(10_state.md rule R31, 41_key_schedule.md rule R122). -/

namespace Sys2Proof.Machine

/-- Past round key NR the layout is zero. -/
theorem layoutRoundKeys_tail (nk : Nat) (w : List Word) (j : Fin 240)
    (h : 16 * (nk + 7) ≤ j.val) : (layoutRoundKeys nk w)[j] = 0x00 := by
  simp [layoutRoundKeys, Nat.not_lt.mpr h]

/-- A legal key length gives one of the three numbers of rounds. -/
theorem nrOf_legal {keylen : Byte} (h : legalKeyLength keylen = true) :
    nrOf (nkOf keylen) = 10 ∨ nrOf (nkOf keylen) = 12 ∨ nrOf (nkOf keylen) = 14 := by
  rcases (legalKeyLength_iff keylen).1 h with rfl | rfl | rfl <;> decide

/-- After a successful expansion the engine has its invariant, whatever it was before, for an ERR that
goes with a valid key. -/
theorem Engine.installKey_inv (e : Engine) (h : legalKeyLength e.keylen = true)
    (he : e.err = 0 ∨ e.err = 3 ∨ e.err = 4) : e.installKey.Inv := by
  have hn := nrOf_legal h
  refine ⟨fun _ => ⟨h, rfl, rfl⟩, ?_, ?_, ?_, ?_, ?_, fun _ => ?_⟩
  · have hr : e.installKey.nr = BitVec.ofNat 8 (nrOf (nkOf e.keylen)) := rfl
    rw [hr]
    rcases hn with hn | hn | hn <;> rw [hn] <;> decide
  · intro h0
    change BitVec.ofNat 8 (nrOf (nkOf e.keylen)) = 0 at h0
    rcases hn with hn | hn | hn <;> rw [hn] at h0 <;> exact absurd h0 (by decide)
  · intro j hj
    refine layoutRoundKeys_tail _ _ j ?_
    change 16 * ((BitVec.ofNat 8 (nrOf (nkOf e.keylen))).toNat + 1) ≤ j.val at hj
    have : (BitVec.ofNat 8 (nrOf (nkOf e.keylen))).toNat = nkOf e.keylen + 6 := by
      rcases hn with hn | hn | hn <;> rw [hn] <;> simp [nrOf] at hn ⊢ <;> omega
    omega
  · show e.err.toNat ≤ 4
    rcases he with he | he | he <;> rw [he] <;> decide
  · intro hc
    change e.err = 1 ∨ e.err = 2 at hc
    rcases he with he | he | he <;> rw [he] at hc <;> exact absurd hc (by decide)
  · show BitVec.ofNat 8 (nrOf (nkOf e.keylen)) ≠ 0
    rcases hn with hn | hn | hn <;> rw [hn] <;> decide

end Sys2Proof.Machine
end

