-- ==== Sys2Proof/Laws/PerInstr.lean ====
section
/-! SUPPORT. Laws said of every instruction, one lemma per constructor. EncodingFitsTable: the word of
a well-formed instruction has its row's format and passes its row's test of spec/opcode_table.json, and
no other command row's (30_encoding.md rules R74, R77, R80). -/

namespace Sys2Proof.Laws.EncodingFitsTable

/-- The word is a command byte that row `n` of R80 matches and no other row does. -/
def IsOnlyRow (n : Nat) (w : TableWord) : Prop :=
  ∃ b : Byte, w = .cmd8 b ∧ scanRows b = some n ∧
    ∀ m : Fin 12, commandRows[m.val].matches b = true → m.val = n

/-- The word is a command byte that no row of R80 matches. -/
def IsNoRow (w : TableWord) : Prop := ∃ b : Byte, w = .cmd8 b ∧ ∀ r ∈ commandRows, r.matches b = false

/-- The word is a transaction word with the given fixed bits. -/
def HasFixedBits (mask pattern : BitVec 18) (w : TableWord) : Prop :=
  ∃ t : BitVec 18, w = .txn18 t ∧ t &&& mask = pattern

/-- The encoding of a well-formed instruction fits its row. -/
def Statement (i : Instr) : Prop :=
  i.wf = true →
    match i with
    | .nop => IsOnlyRow 0 (encode i)
    | .expandKey => IsOnlyRow 1 (encode i)
    | .encrypt => IsOnlyRow 2 (encode i)
    | .decrypt => IsOnlyRow 3 (encode i)
    | .subBytes => IsOnlyRow 4 (encode i)
    | .invSubBytes => IsOnlyRow 5 (encode i)
    | .shiftRows => IsOnlyRow 6 (encode i)
    | .invShiftRows => IsOnlyRow 7 (encode i)
    | .mixColumns => IsOnlyRow 8 (encode i)
    | .invMixColumns => IsOnlyRow 9 (encode i)
    | .addRoundKey _ => IsOnlyRow 10 (encode i)
    | .gfMul => IsOnlyRow 11 (encode i)
    | .illegalCmd _ => IsNoRow (encode i)
    | .hostWrite _ _ => HasFixedBits 0x20000 0x20000 (encode i)
    | .hostRead _ => HasFixedBits 0x200FF 0x00000 (encode i)

theorem nop : Statement .nop := fun _ => ⟨0x00, rfl, by decide, by decide⟩

theorem expandKey : Statement .expandKey := fun _ => ⟨0x01, rfl, by decide, by decide⟩

theorem encrypt : Statement .encrypt := fun _ => ⟨0x02, rfl, by decide, by decide⟩

theorem decrypt : Statement .decrypt := fun _ => ⟨0x03, rfl, by decide, by decide⟩

theorem subBytes : Statement .subBytes := fun _ => ⟨0x04, rfl, by decide, by decide⟩

theorem invSubBytes : Statement .invSubBytes := fun _ => ⟨0x05, rfl, by decide, by decide⟩

theorem shiftRows : Statement .shiftRows := fun _ => ⟨0x06, rfl, by decide, by decide⟩

theorem invShiftRows : Statement .invShiftRows := fun _ => ⟨0x07, rfl, by decide, by decide⟩

theorem mixColumns : Statement .mixColumns := fun _ => ⟨0x08, rfl, by decide, by decide⟩

theorem invMixColumns : Statement .invMixColumns := fun _ => ⟨0x09, rfl, by decide, by decide⟩

theorem addRoundKey (r : BitVec 4) : Statement (.addRoundKey r) := fun _ =>
  ⟨commandByte r 0xA, rfl, by revert r; decide, by revert r; decide⟩

theorem gfMul : Statement .gfMul := fun _ => ⟨0x0B, rfl, by decide, by decide⟩

theorem illegal_matches_no_row :
    ∀ v : Byte, legalByte v = false → ∀ r ∈ commandRows, r.matches v = false := by
  decide +kernel

theorem illegalCmd (v : Byte) : Statement (.illegalCmd v) := fun h =>
  ⟨v, rfl, illegal_matches_no_row v (by simpa [Instr.wf] using h)⟩

theorem hostWrite (off : Offset) (v : Byte) : Statement (.hostWrite off v) := fun _ =>
  ⟨wordOfTxn ⟨true, off, v⟩, rfl, by
    have w17 : (wordOfTxn ⟨true, off, v⟩).getLsbD 17 = true :=
      congrArg Txn.w (txnOfWord_wordOfTxn ⟨true, off, v⟩)
    rw [show (0x20000 : BitVec 18) = BitVec.twoPow 18 17 by decide, BitVec.and_twoPow, if_pos w17]⟩

theorem hostRead (off : Offset) : Statement (.hostRead off) := fun _ =>
  ⟨wordOfTxn ⟨false, off, 0⟩, rfl, by revert off; decide +kernel⟩

end Sys2Proof.Laws.EncodingFitsTable
end

