-- ==== Sys2Proof/Tests/Slice0.lean ====
section
/-! SUPPORT. The model's own tests, each about one word or one step, with expected values from the spec
(30_encoding.md, 95_test_vectors.md and the rules' examples); and, for every obligation with hypotheses,
a witness that meets them. -/

namespace Sys2Proof.Tests

set_option Elab.async false

open Sys2Proof.Machine

/-! ### Helpers -/

/-- The machine right after reset, with the engine changed. -/
def withRegs (f : Engine → Engine) : State := State.reset.withEngine (f Engine.reset)

/-- After reset, with STATE written. -/
def withBlock (b : Block) : State := withRegs fun e => { e with state := b }

/-- A valid key with `nr` rounds, RK unspecified (all zero). Not every such state is reachable. -/
def keyedRounds (nr : Byte) : State := withRegs fun e => { e with keyValid := true, nr := nr }

/-- The key bytes 00 01 02 … 1f. -/
def countingKey : KeyBytes := Vector.ofFn fun k => BitVec.ofNat 8 k.val

/-- KEY and KEYLEN written, no expansion. -/
def keyLoaded (n : Byte) : State := withRegs fun e => { e with keylen := n, key := countingKey }

/-- The notation's Keyed(000102…): KEY, KEYLEN and the expansion. -/
def keyed (n : Byte) : State := withRegs fun e => { e with keylen := n, key := countingKey }.installKey

/-- Keyed, with STATE written. -/
def keyedBlock (n : Byte) (b : Block) : State :=
  (keyed n).withEngine { (keyed n).engine with state := b }

/-- The engine of a next state. -/
def engineOf : Result → Option Engine
  | .next t => some t.engine
  | .fault _ => none
  | .refused _ => none

/-- One register of a next state. -/
def field {α : Type} (f : Engine → α) (r : Result) : Option α := (engineOf r).map f

/-- The bytes a next state has returned. -/
def bytesOf : Result → List Byte
  | .next t => t.returned
  | .fault _ => []
  | .refused _ => []

/-! ### WellFormed smoke: the ill-formed terms are refused, the others are not -/

theorem test_wf_refuses_legal_bytes_as_illegal :
    Instr.wf (.illegalCmd 0x02) = false ∧ Instr.wf (.illegalCmd 0x00) = false ∧
    Instr.wf (.illegalCmd 0x0B) = false ∧ Instr.wf (.illegalCmd 0xFA) = false := by decide

theorem test_wf_accepts :
    Instr.wf (.illegalCmd 0x0C) = true ∧ Instr.wf (.illegalCmd 0x10) = true ∧
    Instr.wf (.addRoundKey 15) = true ∧ Instr.wf (.hostWrite 0x1FF 0xFF) = true := by decide

/-! ### Decoding: words written out from R80's patterns and R77's fields -/

theorem test_decode_nop : decode (.cmd8 0b00000000#8) = .ok .nop := by decide

theorem test_decode_expandKey : decode (.cmd8 0b00000001#8) = .ok .expandKey := by decide

theorem test_decode_encrypt : decode (.cmd8 0b00000010#8) = .ok .encrypt := by decide

theorem test_decode_decrypt : decode (.cmd8 0b00000011#8) = .ok .decrypt := by decide

theorem test_decode_subBytes : decode (.cmd8 0b00000100#8) = .ok .subBytes := by decide

theorem test_decode_invSubBytes : decode (.cmd8 0b00000101#8) = .ok .invSubBytes := by decide

theorem test_decode_shiftRows : decode (.cmd8 0b00000110#8) = .ok .shiftRows := by decide

theorem test_decode_invShiftRows : decode (.cmd8 0b00000111#8) = .ok .invShiftRows := by decide

theorem test_decode_mixColumns : decode (.cmd8 0b00001000#8) = .ok .mixColumns := by decide

theorem test_decode_invMixColumns : decode (.cmd8 0b00001001#8) = .ok .invMixColumns := by decide

theorem test_decode_addRoundKey : decode (.cmd8 0b10101010#8) = .ok (.addRoundKey 10) := by decide

theorem test_decode_gfMul : decode (.cmd8 0b00001011#8) = .ok .gfMul := by decide

theorem test_decode_illegalCmd_op : decode (.cmd8 0b11111100#8) = .ok (.illegalCmd 0xFC) := by decide

theorem test_decode_illegalCmd_arg : decode (.cmd8 0b00010010#8) = .ok (.illegalCmd 0x12) := by decide

/-- W = 1, OFF = 0x020, DATA = 0x0F. -/
theorem test_decode_hostWrite :
    decode (.txn18 0b1_000100000_00001111#18) = .ok (.hostWrite 0x020 0x0F) := by decide

/-- W = 0, OFF = 0x1E0, DATA = 0. -/
theorem test_decode_hostRead : decode (.txn18 0b0_111100000_00000000#18) = .ok (.hostRead 0x1E0) := by
  decide

/-- R77: DATA is 0 for a read. -/
theorem test_decode_refuses_read_with_data :
    decode (.txn18 0b0_111100000_00000001#18) = .error .readWithData := by decide

theorem test_decode_refuses_wide_numbers :
    decodeNumber 8 0x100 = .error .outOfWidth ∧ decodeNumber 24 0x40000 = .error .outOfWidth := by decide

/-- R77's three example words. -/
theorem test_encode_examples :
    encode (.hostWrite 0x000 0x02) = .txn18 0x20002 ∧ encode (.hostWrite 0x010 0x00) = .txn18 0x21000 ∧
    encode (.hostRead 0x001) = .txn18 0x00100 := by decide

theorem test_decodeTableWord :
    decodeTableWord 8 0x0A = some (.addRoundKey 0) ∧
    decodeTableWord 24 0x20002 = some (.hostWrite 0x000 0x02) ∧
    decodeTableWord 24 0x00100 = some (.hostRead 0x001) ∧ decodeTableWord 24 0x00101 = none := by decide

/-- The word placed by `withFetchWord` is the one the next step runs: EXPAND_KEY right after reset is a
KEY_LENGTH failure (V12), and a transaction word is that transaction. -/
theorem test_withFetchWord :
    field Engine.status (step (State.reset.withFetchWord 8 0x01)) = some 0x01 ∧
    field Engine.cmd (step (State.reset.withFetchWord 8 0x01)) = some 0x01 ∧
    field Engine.keylen (step (State.reset.withFetchWord 24 0x20210)) = some 0x10 ∧
    bytesOf (step (State.reset.withFetchWord 24 0x00100)) = [0x00] := by decide

/-! ### The notation of host programs (R78, R79, program P1's and P5's words) -/

theorem test_ldkey_words :
    programWords [.ldkey [0x00, 0x01, 0x02, 0x03]] = [0x20204, 0x22000, 0x22101, 0x22202, 0x22303] := by
  decide

theorem test_gfmul_words : programWords [.gfmul 0x57 0x83] = [0x20457, 0x20583, 0x2000b] := by decide

theorem test_parse_line :
    parseLine "rd 0x1e0 -> 0x24 ; first byte of round key 14".toList =
      .ok (some (.rdIs 0x1e0 0x24)) := by decide +kernel

/-! ### One step per instruction -/

/-- V13: NOP from STATUS = 0x0b leaves STATUS = 0x08. -/
theorem test_nop_clears_err :
    field Engine.status (exec .nop (withRegs fun e => { e with keyValid := true, err := 3 })) =
      some 0x08 := by decide

/-- V1b: KEYLEN = 0x11 is KEY_LENGTH, and KEY_VALID falls. -/
theorem test_expandKey_rejects_length :
    field Engine.status (exec .expandKey (withRegs fun e => { e with keylen := 0x11, keyValid := true })) =
      some 0x01 := by decide +kernel

/-- V5: round key 10 of the key 000102…0f. -/
theorem test_expandKey_last_round_key :
    field (fun e => (e.rk.toList.drop 160).take 16) (exec .expandKey (keyLoaded 0x10)) =
      some (#v[0x13, 0x11, 0x1d, 0x7f, 0xe3, 0x94, 0x4a, 0x17, 0xf3, 0x07, 0xa7, 0x8b, 0x4d, 0x2b, 0x30, 0xc5] : Block).toList := by
  decide +kernel

/-- V1: the known answer of CLM §8. -/
theorem test_encrypt_known_answer :
    field Engine.state (exec .encrypt (keyedBlock 0x10
      #v[0x00, 0x11, 0x22, 0x33, 0x44, 0x55, 0x66, 0x77, 0x88, 0x99, 0xaa, 0xbb, 0xcc, 0xdd, 0xee, 0xff])) =
      some #v[0x69, 0xc4, 0xe0, 0xd8, 0x6a, 0x7b, 0x04, 0x30, 0xd8, 0xcd, 0xb7, 0x80, 0x70, 0xb4, 0xc5, 0x5a] := by
  decide +kernel

/-- V12: NO_KEY after reset. -/
theorem test_encrypt_needs_key : field Engine.status (exec .encrypt State.reset) = some 0x02 := by decide

/-- V11: DECRYPT of the zero block under the key 000102…0f. -/
theorem test_decrypt_zero_block :
    field Engine.state (exec .decrypt (keyedBlock 0x10 (Vector.replicate 16 0x00))) =
      some #v[0x7b, 0x1d, 0x29, 0xa1, 0x6c, 0xf8, 0xcc, 0xab, 0x84, 0xf0, 0xb8, 0xa5, 0x98, 0xe4, 0x2f, 0xa6] := by
  decide +kernel

/-- V6. -/
theorem test_subBytes :
    field Engine.state (exec .subBytes (withBlock #v[0x00, 0x01, 0x02, 0x03, 0x04, 0x05, 0x06, 0x07, 0x08, 0x09, 0x0a, 0x0b, 0x0c, 0x0d, 0x0e, 0x0f])) =
      some #v[0x63, 0x7c, 0x77, 0x7b, 0xf2, 0x6b, 0x6f, 0xc5, 0x30, 0x01, 0x67, 0x2b, 0xfe, 0xd7, 0xab, 0x76] := by
  decide +kernel

/-- V6. -/
theorem test_invSubBytes :
    field Engine.state (exec .invSubBytes (withBlock #v[0x00, 0x01, 0x02, 0x03, 0x04, 0x05, 0x06, 0x07, 0x08, 0x09, 0x0a, 0x0b, 0x0c, 0x0d, 0x0e, 0x0f])) =
      some #v[0x52, 0x09, 0x6a, 0xd5, 0x30, 0x36, 0xa5, 0x38, 0xbf, 0x40, 0xa3, 0x9e, 0x81, 0xf3, 0xd7, 0xfb] := by
  decide +kernel

/-- V7. -/
theorem test_shiftRows :
    field Engine.state (exec .shiftRows (withBlock #v[0x00, 0x01, 0x02, 0x03, 0x04, 0x05, 0x06, 0x07, 0x08, 0x09, 0x0a, 0x0b, 0x0c, 0x0d, 0x0e, 0x0f])) =
      some #v[0x00, 0x05, 0x0a, 0x0f, 0x04, 0x09, 0x0e, 0x03, 0x08, 0x0d, 0x02, 0x07, 0x0c, 0x01, 0x06, 0x0b] := by
  decide +kernel

/-- V7. -/
theorem test_invShiftRows :
    field Engine.state (exec .invShiftRows (withBlock #v[0x00, 0x01, 0x02, 0x03, 0x04, 0x05, 0x06, 0x07, 0x08, 0x09, 0x0a, 0x0b, 0x0c, 0x0d, 0x0e, 0x0f])) =
      some #v[0x00, 0x0d, 0x0a, 0x07, 0x04, 0x01, 0x0e, 0x0b, 0x08, 0x05, 0x02, 0x0f, 0x0c, 0x09, 0x06, 0x03] := by
  decide +kernel

/-- V8. -/
theorem test_mixColumns :
    field Engine.state (exec .mixColumns (withBlock #v[0xd4, 0xd4, 0xd4, 0xd5, 0x2d, 0x26, 0x31, 0x4c, 0x00, 0x00, 0x00, 0x00, 0x80, 0x00, 0x00, 0x00])) =
      some #v[0xd5, 0xd5, 0xd7, 0xd6, 0x4d, 0x7e, 0xbd, 0xf8, 0x00, 0x00, 0x00, 0x00, 0x1b, 0x80, 0x80, 0x9b] := by
  decide +kernel

/-- V8. -/
theorem test_invMixColumns :
    field Engine.state (exec .invMixColumns (withBlock #v[0x00, 0x01, 0x02, 0x03, 0x04, 0x05, 0x06, 0x07, 0x08, 0x09, 0x0a, 0x0b, 0x0c, 0x0d, 0x0e, 0x0f])) =
      some #v[0x0a, 0x0f, 0x08, 0x0d, 0x0e, 0x0b, 0x0c, 0x09, 0x02, 0x07, 0x00, 0x05, 0x06, 0x03, 0x04, 0x01] := by
  decide +kernel

/-- V9: round 10 = NR under the key 000102…0f. -/
theorem test_addRoundKey_last_round :
    field Engine.state (exec (.addRoundKey 10) (keyedBlock 0x10
      #v[0x00, 0x11, 0x22, 0x33, 0x44, 0x55, 0x66, 0x77, 0x88, 0x99, 0xaa, 0xbb, 0xcc, 0xdd, 0xee, 0xff])) =
      some #v[0x13, 0x00, 0x3f, 0x4c, 0xa7, 0xc1, 0x2c, 0x60, 0x7b, 0x9e, 0x0d, 0x30, 0x81, 0xf6, 0xde, 0x3a] := by
  decide +kernel

/-- V9: round 11 > NR = 10 is ROUND_RANGE, with a valid key: STATUS = 0x0b. -/
theorem test_addRoundKey_out_of_range :
    field Engine.status (exec (.addRoundKey 11) (keyedRounds 10)) = some 0x0b := by decide

/-- V10: 0x57 · 0x13 = 0xfe. -/
theorem test_gfMul :
    field Engine.gfr (exec .gfMul (withRegs fun e => { e with gfa := 0x57, gfb := 0x13 })) = some 0xfe := by
  decide

/-- V12: an illegal byte keeps KEY_VALID and sets ERR = 4. -/
theorem test_illegalCmd :
    field Engine.status (exec (.illegalCmd 0xFF) (keyedRounds 10)) = some 0x0c := by decide

/-- V12: rewriting KEY[15] clears KEY_VALID. -/
theorem test_hostWrite_key_clears_keyValid :
    field Engine.status (exec (.hostWrite 0x02f 0x0f) (keyedRounds 10)) = some 0x00 := by decide

/-- V12: `cmd 0x1B` is stored in CMD and changes no GFR. -/
theorem test_hostWrite_cmd_stores_then_executes :
    field (fun e => (e.cmd, e.status, e.gfr))
      (exec (.hostWrite 0x000 0x1B) (withRegs fun e => { e with gfa := 2, gfb := 2, gfr := 7 })) =
      some (0x1B, 0x04, 0x07) := by decide

/-- V12: a reserved offset reads 0x00. -/
theorem test_hostRead_reserved : bytesOf (exec (.hostRead 0x1ff) State.reset) = [0x00] := by decide

/-- P4: RK[224] is the first byte of round key 14 of the key 000102…1f. -/
theorem test_hostRead_rk : bytesOf (exec (.hostRead 0x1e0) (keyed 0x20)) = [0x24] := by decide +kernel

/-- R230: the reset input. -/
theorem test_reset_input :
    engineOf (step { keyedRounds 14 with pending := [.reset] }) = some Engine.reset := by
  decide +kernel

/-! ### Witnesses: for every obligation with hypotheses, states and operands that meet them -/

theorem witness_DecodeOfEncodeIsTheInstruction :
    (Instr.addRoundKey 15).wf = true ∧ (Instr.illegalCmd 0xFF).wf = true ∧
    (Instr.hostWrite 0x1FF 0xFF).wf = true ∧ (Instr.hostRead 0x1FF).wf = true := by decide

theorem witness_EncodeOfDecodeIsTheWord :
    decode (.cmd8 0xFF) = .ok (.illegalCmd 0xFF) ∧ decode (.txn18 0x3FFFF) = .ok (.hostWrite 0x1FF 0xFF) ∧
    decode (.txn18 0x1FF00) = .ok (.hostRead 0x1FF) ∧
    ¬ ((0x200FF : BitVec 18).getLsbD 17 = false ∧ (0x200FF : BitVec 18).extractLsb' 0 8 ≠ 0) ∧
    ((0x00001 : BitVec 18).getLsbD 17 = false ∧ (0x00001 : BitVec 18).extractLsb' 0 8 ≠ 0) := by decide

theorem witness_CommandTableScanIsTheDecoder :
    (⟨0x0A, 0x0F⟩ : CommandRow) ∈ commandRows ∧ CommandRow.matches ⟨0x0A, 0x0F⟩ 0xFA = true ∧
    scanRows 0x0C = none := by decide

theorem witness_TwoHundredTwentyNineBytesAreIllegal :
    0xC ≤ (opField 0x0C).toNat ∧ 0xC ≤ (opField 0xFF).toNat ∧
    decodeCommand 0x10 = .illegalCmd 0x10 ∧ decodeCommand 0xFF = .illegalCmd 0xFF := by decide

theorem witness_NonzeroArgIsIllegalExceptForAddRoundKey :
    ((1 : BitVec 4) ≠ 0 ∧ (0x9 : BitVec 4).toNat ≤ 0x9) ∧
    ((15 : BitVec 4) ≠ 0 ∧ ((0xB : BitVec 4).toNat ≤ 0x9 ∨ (0xB : BitVec 4) = 0xB)) := by decide

/-- Both kinds of transaction, a transaction word and a command byte, with an event left to come. -/
theorem witness_StepRunsTheDecodedTransaction :
    { State.reset with pending := [.txn ⟨true, 0x1FF, 0xFF⟩, .reset] }.pending =
      .txn ⟨true, 0x1FF, 0xFF⟩ :: [.reset] ∧
    { State.reset with pending := [.txn ⟨false, 0x001, 0x00⟩] }.pending = .txn ⟨false, 0x001, 0x00⟩ :: [] ∧
    (decode (.txn18 0x20210) = .ok (.hostWrite 0x002 0x10) ∧
      { State.reset with pending := [.txn (txnOfWord 0x20210)] }.pending =
        .txn (txnOfWord 0x20210) :: []) ∧
    (decode (.cmd8 0xFA) = .ok (.addRoundKey 15) ∧
      { State.reset with pending := [.txn ⟨true, 0x000, 0xFA⟩] }.pending = .txn ⟨true, 0x000, 0xFA⟩ :: []) := by
  decide

/-- Key lengths at and past both ends. -/
theorem witness_PseudoInstructionsExpand :
    ([1, 32].map fun n => (HostLine.ldkey (List.replicate n 0)).wf).all id = true ∧
    ([0, 33].map fun n => (HostLine.ldkey (List.replicate n 0)).wf).any id = false := by decide

theorem witness_IdleStepHoldsAllState : (keyedRounds 10).pending = [] := by decide

/-- The reset input taken in a state that is not the reset state. -/
theorem witness_ResetPutsEveryRegisterAtZero :
    { keyedRounds 14 with pending := [.reset] }.pending = .reset :: [] ∧
    step { keyedRounds 14 with pending := [.reset] } = .next State.reset := ⟨rfl, rfl⟩

theorem witness_ResetInputCompletes :
    { keyedRounds 14 with pending := [.reset, .reset] }.pending = .reset :: [.reset] := by decide

theorem witness_CmdWriteStoresThenExecutes :
    0xC ≤ (0xC : BitVec 4).toNat ∧ 0xC ≤ (0xF : BitVec 4).toNat ∧
    ((1 : BitVec 4) ≠ 0 ∧ (0x0 : BitVec 4) ≠ 0xA) ∧ ((15 : BitVec 4) ≠ 0 ∧ (0xF : BitVec 4) ≠ 0xA) := by
  decide

/-- Every clause at both ends of its ranges, and the offsets next to them outside. -/
theorem witness_ReservedAndReadOnlyOffsetsIgnoreWrites :
    ([0x007, 0x00F, 0x040, 0x0FF, 0x1F0, 0x1FF].map reservedOffset).all id = true ∧
    ([0x006, 0x010, 0x03F, 0x100, 0x1EF].map reservedOffset).any id = false ∧
    ([0x100, 0x1EF].map rkWindow).all id = true ∧ ([0x0FF, 0x1F0].map rkWindow).any id = false := by decide

theorem witness_ReadAfterWriteReturnsTheByteWritten :
    ([0x002, 0x004, 0x005, 0x010, 0x01F, 0x020, 0x03F].map readWriteOffset).all id = true ∧
    ((0x01F : Offset) ≠ 0x020 ∧ (0x01F : Offset) ≠ 0x001) ∧
    (keyWindow 0x020 = true ∧ keyWindow 0x03F = true ∧ keyWindow 0x01F = false ∧
      keyWindow 0x040 = false) := by decide

theorem witness_OnlyCmdWritesAreNotIdempotent :
    (keyedRounds 10).engine.keyValid = true ∧ keyWindow 0x020 = true ∧ keyWindow 0x03F = true ∧
    (0x001 : Offset) ≠ 0x000 ∧ (0x1FF : Offset) ≠ 0x000 := by decide

/-- Two engines that read alike everywhere. -/
theorem witness_EveryRegisterIsReadable :
    ∀ off : Offset, (keyedRounds 10).engine.byteAt off =
      ({ (keyedRounds 10).engine with err := 0 } : Engine).byteAt off := fun _ => rfl

theorem witness_InstructionsChangeOnlyTheirOffsets :
    mayWrite .nop 0x000 = false ∧ mayWrite .expandKey 0x010 = false ∧ mayWrite .encrypt 0x100 = false ∧
    mayWrite (.hostWrite 0x000 0x01) 0x01F = false ∧ mayWrite (.hostWrite 0x01F 0xFF) 0x020 = false ∧
    mayWrite (.hostRead 0x000) 0x000 = false ∧ Instr.nop ≠ .hostRead 0x000 := by decide

/-- A legal length at both ends, an illegal one next to each, the windows' ends, a command that is no
writer, a keyed command without a key, and an unkeyed command. -/
theorem witness_KeyValidHasTheListedWritersAndReaders :
    ([0x10, 0x18, 0x20].map legalKeyLength).all id = true ∧
    ([0x00, 0x0F, 0x11, 0x17, 0x19, 0x1F, 0x21, 0x30, 0xFF].map legalKeyLength).any id = false ∧
    (keyWindow 0x020 = true ∧ keyWindow 0x03F = true) ∧
    (Instr.hostWrite 0x000 0x02 ≠ .expandKey ∧ Instr.hostWrite 0x000 0x02 ≠ .hostWrite 0x000 0x01) ∧
    ((0x000 : Offset) ≠ 0x002 ∧ keyWindow 0x000 = false) ∧
    (isKeyed (.addRoundKey 15) = true ∧ State.reset.engine.keyValid = false) ∧
    (Instr.isCommand .expandKey = true ∧ isKeyed .expandKey = false) ∧
    (Instr.isCommand (.illegalCmd 0xFF) = true ∧ isKeyed (.illegalCmd 0xFF) = false) ∧
    { keyedRounds 14 with pending := [.reset] }.pending = .reset :: [] := by decide

theorem witness_ErrIsWrittenByEveryCommandAndNothingElse :
    Instr.isCommand .gfMul = true ∧ Instr.isCommand (.illegalCmd 0x0C) = true ∧
    (0x001 : Offset) ≠ 0x000 ∧
    { keyedRounds 14 with pending := [.reset] }.pending = .reset :: [] := by decide

/-- A keyed state has the invariant, and a step from it, here of a KEY write, answers a next state. -/
theorem witness_StepKeepsTheEngineInvariant :
    { keyed 0x20 with pending := [.txn ⟨true, 0x03F, 0xFF⟩] }.engine.Inv ∧
    ∃ t, step { keyed 0x20 with pending := [.txn ⟨true, 0x03F, 0xFF⟩] } = .next t :=
  ⟨Engine.installKey_inv _ (by decide) (.inl rfl), _, rfl⟩

/-- A reachable state after a command the host issued. -/
theorem reachable_after_encrypt :
    Reachable { State.reset with engine := { Engine.reset with cmd := 0x02, err := 2 } } :=
  .step { State.reset with pending := [.txn ⟨true, 0x000, 0x02⟩] } _ (.host _ _ .reset) rfl

/-- After reset: KEYLEN <- 16, EXPAND_KEY, ADD_ROUND_KEY 15. -/
def rangeFailure : State :=
  withRegs fun e => { { e with keylen := 0x10 }.installKey with cmd := 0xFA, err := 3 }

/-- A host transaction from a reachable state gives a reachable state. -/
theorem reachable_txn {s t : State} (x : Txn) (hs : Reachable s)
    (h : exec (decodeSignals x) { s with pending := [] } = .next t) : Reachable t :=
  .step { s with pending := [.txn x] } t (.host s _ hs) h

theorem reachable_rangeFailure : Reachable rangeFailure := by
  have h1 : Reachable (withRegs fun e => { e with keylen := 0x10 }) :=
    reachable_txn ⟨true, 0x002, 0x10⟩ .reset rfl
  have h2 : Reachable (withRegs fun e => { { e with keylen := 0x10 }.installKey with cmd := 0x01 }) :=
    reachable_txn ⟨true, 0x000, 0x01⟩ h1 rfl
  exact reachable_txn ⟨true, 0x000, 0xFA⟩ h2 rfl

/-- Reachable states, and the one way to STATUS = 0x03: from 0x0B, by a KEYLEN write, here of the value
already held, and by a write of KEY[0] or KEY[31]. -/
theorem witness_ReachableStatusIsOneOfEightValues :
    Reachable { State.reset with engine := { Engine.reset with cmd := 0x02, err := 2 } } ∧
    (Reachable { rangeFailure with pending := [.txn ⟨true, 0x002, 0x10⟩] } ∧
      rangeFailure.engine.byteAt 0x001 = 0x0B) ∧
    (∀ off : Offset, off = 0x002 ∨ off = 0x020 ∨ off = 0x03F →
      field (fun e => e.byteAt 0x001) (exec (.hostWrite off 0x10) rangeFailure) = some 0x03) :=
  ⟨reachable_after_encrypt, ⟨.host _ _ reachable_rangeFailure, rfl⟩, by
    rintro off (rfl | rfl | rfl) <;> rfl⟩

theorem witness_OnlyExpandKeyChangesNrAndRk :
    legalKeyLength (keyLoaded 0x11).engine.keylen = false ∧
    ¬ (Instr.encrypt = .expandKey ∨ Instr.encrypt = .hostWrite 0x000 0x01) := by decide

theorem witness_ErrorPrecedence :
    decodeCommand 0x1B = .illegalCmd 0x1B ∧ legalKeyLength State.reset.engine.keylen = false ∧
    State.reset.engine.keyValid = false ∧
    ((keyedRounds 14).engine.keyValid = true ∧
      (keyedRounds 14).engine.nr.toNat < (15 : BitVec 4).toNat) := by decide

/-- A failing command of each code. -/
theorem witness_FailingCommandsHaveNoPartialEffect :
    field Engine.err (exec (.hostWrite 0x000 0x01) State.reset) = some 1 ∧
    field Engine.err (exec (.hostWrite 0x000 0x02) State.reset) = some 2 ∧
    field Engine.err (exec (.hostWrite 0x000 0xBA) (keyedRounds 10)) = some 3 ∧
    field Engine.err (exec (.hostWrite 0x000 0x0C) State.reset) = some 4 := by decide

theorem witness_NopClearsErrOnly :
    (1 : BitVec 4) ≠ 0 ∧ (15 : BitVec 4) ≠ 0 ∧
    (withRegs fun e => { e with keyValid := true, err := 3 }).engine.status = 0x0B := by decide

theorem witness_EncryptAndDecryptTransformState :
    (keyedRounds 14).engine.keyValid = true ∧ State.reset.engine.keyValid = false ∧
    ((1 : BitVec 4) ≠ 0 ∧ ((0x2 : BitVec 4) = 0x2 ∨ (0x2 : BitVec 4) = 0x3)) ∧
    ((15 : BitVec 4) ≠ 0 ∧ ((0x3 : BitVec 4) = 0x2 ∨ (0x3 : BitVec 4) = 0x3)) := by decide

/-- KEY, KEYLEN and STATE as the known answer has them. -/
theorem witness_KnownAnswerVector :
    let b : Block := #v[0x00, 0x11, 0x22, 0x33, 0x44, 0x55, 0x66, 0x77, 0x88, 0x99, 0xaa, 0xbb, 0xcc, 0xdd, 0xee, 0xff]
    let s := (keyLoaded 0x10).withEngine { (keyLoaded 0x10).engine with state := b }
    s.engine.keylen = 0x10 ∧ (∀ k : Fin 16, s.engine.key[k.val] = BitVec.ofNat 8 k.val) ∧
      s.engine.state = b := by decide +kernel

theorem witness_CipherAndInvCipherAreInverse :
    (10 : Nat) = 10 ∨ (10 : Nat) = 12 ∨ (10 : Nat) = 14 := by decide

/-- Each number of rounds. -/
theorem witness_EncryptIsItsCommandSequence :
    ([10, 12, 14] : List Nat).all (fun nr =>
      (keyedRounds (BitVec.ofNat 8 nr)).engine.keyValid &&
        (keyedRounds (BitVec.ofNat 8 nr)).engine.nr == BitVec.ofNat 8 nr &&
        (nr == 10 || nr == 12 || nr == 14)) = true ∧
    Instr.addRoundKey 10 ∈ encryptSequence 10 ∧ Instr.mixColumns ∈ encryptSequence 14 := by decide

theorem witness_DecryptIsItsCommandSequence :
    (keyedRounds 14).engine.keyValid = true ∧ (keyedRounds 14).engine.nr = BitVec.ofNat 8 14 ∧
    ((14 : Nat) = 10 ∨ (14 : Nat) = 12 ∨ (14 : Nat) = 14) := by decide

/-- The invariant with a valid key and without one; the last round in range. -/
theorem witness_KeyedCommandsUseTheCurrentKey :
    ((keyed 0x20).engine.Inv ∧ (keyed 0x20).engine.keyValid = true ∧
      (14 : BitVec 4).toNat ≤ (keyed 0x20).engine.keylen.toNat / 4 + 6) ∧
    ((keyed 0x20).engine.storeByte 0x020 0).keyValid = false ∧
    State.reset.engine.keyValid = false ∧ isKeyed (.addRoundKey 15) = true :=
  ⟨⟨Engine.installKey_inv _ (by decide) (.inl rfl), rfl, by decide⟩, rfl, rfl, rfl⟩

/-- The invariant without a valid key, for the second clause above. -/
theorem witness_ResetMeetsTheEngineInvariant : State.reset.engine.Inv where
  keyState := by decide
  nrLegal := .inl rfl
  noKeyYet := fun _ => rfl
  zeroTail := by decide +kernel
  errLegal := by decide
  errNeedsNoKey := by decide
  rangeNeedsRounds := by decide

/-- Nk = 4 and Nk = 8 at both ends of the expansion's index range. -/
theorem witness_RoundConstants :
    1 ≤ (1 : Nat) ∧ (4 ≤ 4 ∧ 4 ≤ 43 ∧ 43 < 4 * (4 + 6 + 1)) ∧ (8 ≤ 8 ∧ 8 ≤ 59 ∧ 59 < 4 * (8 + 6 + 1)) := by
  decide

/-- Each key length, a raw-key word, and a later word of each case of the recurrence: 8 and 12 for
Nk = 8, 5 for Nk = 4. -/
theorem witness_KeyExpansionFollowsTheRecurrence :
    (countingKey.toList.take 16).length = 4 * 4 ∧ (countingKey.toList.take 24).length = 4 * 6 ∧
    countingKey.toList.length = 4 * 8 ∧ (0 < 4 ∧ 7 < 8) ∧
    ((keyExpansion 8 countingKey.toList)[7]?.isSome && (keyExpansion 8 countingKey.toList)[0]?.isSome &&
      (keyExpansion 8 countingKey.toList)[11]?.isSome && (keyExpansion 8 countingKey.toList)[4]?.isSome &&
      (keyExpansion 4 (countingKey.toList.take 16))[4]?.isSome &&
      (keyExpansion 4 (countingKey.toList.take 16))[1]?.isSome) = true ∧
    (8 ≤ 8 ∧ 8 < 4 * (8 + 6 + 1)) ∧ (8 ≤ 12 ∧ 12 < 4 * (8 + 6 + 1)) ∧ (4 ≤ 5 ∧ 5 < 4 * (4 + 6 + 1)) := by
  decide +kernel

/-- Legal lengths; RK bytes 175 and 176, the last with key material and the first without for KEYLEN
16, and 239 for KEYLEN 32; illegal lengths; an ARG. -/
theorem witness_ExpandKeyDerivesTheRoundKeys :
    ((keyLoaded 0x10).engine.keylen = 0x10 ∧ (keyLoaded 0x20).engine.keylen = 0x20) ∧
    175 < 16 * ((0x10 : Byte).toNat / 4 + 7) ∧ 16 * ((0x10 : Byte).toNat / 4 + 7) ≤ 176 ∧
    239 < 16 * ((0x20 : Byte).toNat / 4 + 7) ∧
    (keyExpansion 4 (countingKey.toList.take 16))[175 / 4]?.isSome = true ∧
    ((keyLoaded 0x11).engine.keylen ≠ 0x10 ∧ (keyLoaded 0x11).engine.keylen ≠ 0x18 ∧
      (keyLoaded 0x11).engine.keylen ≠ 0x20) ∧ (1 : BitVec 4) ≠ 0 := by
  decide +kernel

/-- Two keys that differ only past KEYLEN. -/
theorem witness_KeyBytesPastTheLengthAreNotRead :
    let s := keyLoaded 0x10
    let s' := s.withEngine { s.engine with key := s.engine.key.set 16 0xFF }
    legalKeyLength s.engine.keylen = true ∧ s'.engine.keylen = s.engine.keylen ∧
      (∀ k : Fin 32, k.val < s.engine.keylen.toNat → s'.engine.key[k] = s.engine.key[k]) ∧
      s'.engine.key ≠ s.engine.key := by decide +kernel

theorem witness_ExpandKeyIsIndependentOfState :
    legalKeyLength (keyLoaded 0x11).engine.keylen = false ∧ isKeyed .encrypt = true ∧
    isKeyed .decrypt = true ∧ isKeyed (.addRoundKey 0) = true := by decide

theorem witness_SboxIsTheAffineImageOfTheInverse : gmul 0x53 0xca = 0x01 := by decide

theorem witness_SubBytesCommands :
    (1 : BitVec 4) ≠ 0 ∧ (15 : BitVec 4) ≠ 0 ∧ ((0x5 : BitVec 4) = 0x4 ∨ (0x5 : BitVec 4) = 0x5) := by decide

theorem witness_ShiftRowsCommands :
    (1 : BitVec 4) ≠ 0 ∧ (15 : BitVec 4) ≠ 0 ∧ ((0x7 : BitVec 4) = 0x6 ∨ (0x7 : BitVec 4) = 0x7) := by decide

theorem witness_MixColumnsCommands :
    (1 : BitVec 4) ≠ 0 ∧ (15 : BitVec 4) ≠ 0 ∧ ((0x9 : BitVec 4) = 0x8 ∨ (0x9 : BitVec 4) = 0x9) := by decide

/-- r = 0 and r = NR in range, r = NR + 1 and r = 15 out of it, and no key. -/
theorem witness_AddRoundKeyCommand :
    ((keyedRounds 14).engine.keyValid = true ∧ (0 : BitVec 4).toNat ≤ (keyedRounds 14).engine.nr.toNat ∧
      (14 : BitVec 4).toNat ≤ (keyedRounds 14).engine.nr.toNat) ∧
    ((keyedRounds 10).engine.nr.toNat < (11 : BitVec 4).toNat ∧
      (keyedRounds 14).engine.nr.toNat < (15 : BitVec 4).toNat) ∧
    State.reset.engine.keyValid = false := by decide

theorem witness_InversePairsCancel :
    (Instr.invMixColumns, Instr.mixColumns) ∈ [(Instr.subBytes, Instr.invSubBytes),
      (.invMixColumns, .mixColumns)] := by decide

theorem witness_XtimeReducesOnOverflow :
    (0x80 : Byte).getLsbD 7 = true ∧ (0xFF : Byte).getLsbD 7 = true ∧ (0x7F : Byte).getLsbD 7 = false ∧
    (0x00 : Byte).getLsbD 7 = false := by decide

theorem witness_GmulIsTheFieldProduct : (0x01 : Byte) ≠ 0 ∧ (0xFF : Byte) ≠ 0 := by decide

theorem witness_GfMulCommand : (1 : BitVec 4) ≠ 0 ∧ (15 : BitVec 4) ≠ 0 := by decide

end Sys2Proof.Tests
end

section
/-! SUPPORT. What a step does for each event at the head of the port, said once, and that every
instruction a word decodes to is well formed (00_scope.md rule R17, 30_encoding.md rules R74, R77). -/

namespace Sys2Proof.Machine

/-! ### One equation per event -/

theorem step_of_pending_nil {s : State} (h : s.pending = []) : step s = .next s := by
  simp [step, h]

theorem step_of_pending_reset {s : State} {rest : List PortInput}
    (h : s.pending = .reset :: rest) : step s = .next (s.consume rest).assertReset := by
  simp [step, h]

theorem step_of_pending_txn {s : State} {x : Txn} {rest : List PortInput}
    (h : s.pending = .txn x :: rest) : step s = exec (decodeSignals x) (s.consume rest) := by
  simp [step, h]

/-! ### What the decoder answers is well formed -/

/-- The one constructor that could be ill formed, `illegalCmd`, carries the byte that was decoded, and
that byte is none of the legal ones (R74). -/
theorem decodeCommand_wf (v : Byte) : (decodeCommand v).wf = true := by
  cases hd : decodeCommand v with
  | illegalCmd b =>
    obtain rfl := decodeCommand_illegal_eq hd
    simp [Instr.wf, (decodeCommand_illegal_iff b).1 hd]
  | _ => rfl

theorem decodeSignals_wf (x : Txn) : (decodeSignals x).wf = true := by
  unfold decodeSignals
  split <;> rfl

/-- A transaction word that decodes at all decodes to the instruction its signals name (R77). -/
theorem decodeSignals_of_decode_txn18 {w : BitVec 18} {i : Instr} (h : decode (.txn18 w) = .ok i) :
    decodeSignals (txnOfWord w) = i := by
  simp only [decode] at h
  split at h
  · cases h
  · exact Except.ok.inj h

end Sys2Proof.Machine
end

section
/-! The statements of 00_scope.md: a step is total, and it executes the decoded transaction. -/

open Sys2Proof Sys2Proof.Machine

/-- Settles O14: the head of the port is nothing, a reset or a transaction; the first two answer a
state outright, and a transaction is one instruction, which always does (`exec_eq`). -/
theorem everyStepAnswersANextState : Obligations.EveryStepAnswersANextState := by
  intro s
  cases hp : s.pending with
  | nil => exact ⟨_, step_of_pending_nil hp⟩
  | cons event rest =>
    cases event with
    | reset => exact ⟨_, step_of_pending_reset hp⟩
    | txn x => exact ⟨_, (step_of_pending_txn hp).trans (exec_eq _ _)⟩

/-- Settles O9: a transaction's step is `exec` of what its signals decode to; a word decodes to just
that, and a write to CMD is the command the byte names, run with the byte stored. -/
theorem stepRunsTheDecodedTransaction : Obligations.StepRunsTheDecodedTransaction := by
  intro s rest
  refine ⟨fun off v hp => step_of_pending_txn hp, fun off v hp => step_of_pending_txn hp, ?_, ?_⟩
  · intro w i hd hp
    obtain rfl := decodeSignals_of_decode_txn18 hd
    exact ⟨decodeSignals_wf _, step_of_pending_txn hp⟩
  · intro v i hd hp
    obtain rfl : decodeCommand v = i := Except.ok.inj hd
    exact ⟨decodeCommand_wf v, (step_of_pending_txn hp).trans (exec_cmdWrite_eq v (s.consume rest))⟩

end

section
/-! SUPPORT. The frame of every effect, said once: which of the four kinds an instruction's effect is,
what a command leaves, what a store leaves (10_state.md rules R25, R28, R30, R32; 30_encoding.md rule
R72). Proofs about KEY_VALID, ERR, NR and RK read these instead of the effects' branches. -/

namespace Sys2Proof.Machine

/-! ### The four kinds of effect -/

/-- A command, a CMD write, a store away from CMD, or a read. -/
theorem instrEffect_cases (i : Instr) (e : Engine) :
    (i.isCommand = true ∧ instrEffect i e = commandEffect i e) ∨
    (∃ v, i = .hostWrite 0x000 v ∧
      instrEffect i e = commandEffect (decodeCommand v) { e with cmd := v }) ∨
    (∃ off v, i = .hostWrite off v ∧ off ≠ 0x000 ∧ instrEffect i e = e.storeByte off v) ∨
    (∃ off, i = .hostRead off ∧ instrEffect i e = e) := by
  cases i with
  | hostWrite off v =>
    by_cases h : off = 0x000
    · subst h
      exact .inr (.inl ⟨v, rfl, rfl⟩)
    · exact .inr (.inr (.inl ⟨off, v, rfl, h, if_neg h⟩))
  | hostRead off => exact .inr (.inr (.inr ⟨off, rfl, rfl⟩))
  | _ => exact .inl ⟨rfl, rfl⟩

/-- The only byte that names EXPAND_KEY (R72, R73). -/
theorem decodeCommand_eq_expandKey_iff (v : Byte) : decodeCommand v = .expandKey ↔ v = 0x01 := by
  revert v; decide +kernel

/-! ### What a command leaves -/

theorem isCommand_of_isKeyed {i : Instr} (h : isKeyed i = true) : i.isCommand = true := by
  cases i with
  | hostWrite off v => cases h
  | hostRead off => cases h
  | _ => rfl

theorem commandEffect_expandKey_of_legal {e : Engine} (h : legalKeyLength e.keylen = true) :
    commandEffect .expandKey e = e.installKey.ok := if_pos h

theorem commandEffect_expandKey_of_illegal {e : Engine} (h : legalKeyLength e.keylen = false) :
    commandEffect .expandKey e = e.clearKeyValid.raise .keyLength := if_neg (by simp [h])

/-- A keyed command without a valid key reports NO_KEY and does nothing else. -/
theorem commandEffect_keyed_of_invalid {i : Instr} (hk : isKeyed i = true) {e : Engine}
    (h : e.keyValid = false) : commandEffect i e = { e with err := 2 } := by
  cases i with
  | encrypt | decrypt | addRoundKey => exact if_neg (by simp [h])
  | _ => cases hk

theorem resultCode_keyed_of_invalid {i : Instr} (hk : isKeyed i = true) {e : Engine}
    (h : e.keyValid = false) : resultCode i e = 2 := by
  cases i with
  | encrypt | decrypt | addRoundKey => exact if_neg (by simp [h])
  | _ => cases hk

theorem resultCode_expandKey_of_legal {e : Engine} (h : legalKeyLength e.keylen = true) :
    resultCode .expandKey e = 0 := if_pos ((legalKeyLength_iff _).1 h)

theorem resultCode_expandKey_of_illegal {e : Engine} (h : legalKeyLength e.keylen = false) :
    resultCode .expandKey e = 1 :=
  if_neg fun hl => by simp [(legalKeyLength_iff _).2 hl] at h

/-- EXPAND_KEY installs the key or, with an illegal KEYLEN, drops it; every other command changes
STATE, GFR and ERR at most, and leaves R201's code in ERR. -/
theorem commandEffect_cases {i : Instr} (hi : i.isCommand = true) (e : Engine) :
    (i = .expandKey ∧ legalKeyLength e.keylen = true ∧ commandEffect i e = e.installKey.ok) ∨
    (i = .expandKey ∧ legalKeyLength e.keylen = false ∧
      commandEffect i e = e.clearKeyValid.raise .keyLength) ∨
    (i ≠ .expandKey ∧ ∃ (b : Block) (g : Byte),
      commandEffect i e = { e with state := b, gfr := g, err := resultCode i e }) := by
  cases i with
  | expandKey =>
    cases h : legalKeyLength e.keylen with
    | true => exact .inl ⟨rfl, rfl, commandEffect_expandKey_of_legal h⟩
    | false => exact .inr (.inl ⟨rfl, rfl, commandEffect_expandKey_of_illegal h⟩)
  | encrypt | decrypt =>
    obtain h | h := Bool.eq_false_or_eq_true e.keyValid
    · exact .inr (.inr ⟨by simp, _, e.gfr, by rw [commandEffect, resultCode, if_pos h, if_pos h]⟩)
    · exact .inr (.inr ⟨by simp, e.state, e.gfr,
        by rw [commandEffect_keyed_of_invalid rfl h, resultCode_keyed_of_invalid rfl h]⟩)
  | addRoundKey r =>
    obtain h | h := Bool.eq_false_or_eq_true e.keyValid
    · have hlt : e.nr < roundIndex r ↔ e.nr.toNat < r.toNat := by simp [BitVec.lt_def]
      rw [commandEffect, resultCode, if_pos h, if_pos h]
      by_cases hr : e.nr.toNat < r.toNat
      · exact .inr (.inr ⟨by simp, e.state, e.gfr, by rw [if_pos (hlt.2 hr), if_pos hr]; rfl⟩)
      · exact .inr (.inr ⟨by simp, _, e.gfr, by rw [if_neg (mt hlt.1 hr), if_neg hr]⟩)
    · exact .inr (.inr ⟨by simp, e.state, e.gfr,
        by rw [commandEffect_keyed_of_invalid rfl h, resultCode_keyed_of_invalid rfl h]⟩)
  | hostWrite off v => simp [Instr.isCommand] at hi
  | hostRead off => simp [Instr.isCommand] at hi
  | _ => exact .inr (.inr ⟨by simp, _, _, rfl⟩)

/-- A command leaves R201's code in ERR. -/
theorem commandEffect_err {i : Instr} (hi : i.isCommand = true) (e : Engine) :
    (commandEffect i e).err = resultCode i e := by
  obtain ⟨rfl, hl, h⟩ | ⟨rfl, hl, h⟩ | ⟨-, b, g, h⟩ := commandEffect_cases hi e <;> rw [h]
  · exact (resultCode_expandKey_of_legal hl).symm
  · exact (resultCode_expandKey_of_illegal hl).symm

theorem commandEffect_keyValid {i : Instr} (hi : i.isCommand = true) (hx : i ≠ .expandKey)
    (e : Engine) : (commandEffect i e).keyValid = e.keyValid := by
  obtain ⟨rfl, -, -⟩ | ⟨rfl, -, -⟩ | ⟨-, b, g, h⟩ := commandEffect_cases hi e
  · exact absurd rfl hx
  · exact absurd rfl hx
  · rw [h]

/-- NR and RK stay at every command but a successful EXPAND_KEY. -/
theorem commandEffect_nr_rk {i : Instr} (hi : i.isCommand = true) {e : Engine}
    (hx : i = .expandKey → legalKeyLength e.keylen = false) :
    (commandEffect i e).nr = e.nr ∧ (commandEffect i e).rk = e.rk := by
  obtain ⟨hi, hl, -⟩ | ⟨-, -, h⟩ | ⟨-, b, g, h⟩ := commandEffect_cases hi e
  · exact absurd ((hx hi).symm.trans hl) (by decide)
  · exact h ▸ ⟨rfl, rfl⟩
  · exact h ▸ ⟨rfl, rfl⟩

/-- No command reads ERR. -/
theorem commandEffect_withErr {i : Instr} (hi : i.isCommand = true) (e : Engine) (x : BitVec 3) :
    commandEffect i { e with err := x } = commandEffect i e := by
  cases i with
  | hostWrite off v => simp [Instr.isCommand] at hi
  | hostRead off => simp [Instr.isCommand] at hi
  | _ => rfl

/-- What an unkeyed command leaves does not depend on KEY_VALID, which only EXPAND_KEY writes. -/
theorem commandEffect_withKeyValid {i : Instr} (hi : i.isCommand = true) (hk : isKeyed i = false)
    (e : Engine) (b : Bool) :
    commandEffect i { e with keyValid := b } = { commandEffect i e with
      keyValid := if i = .expandKey then (commandEffect i e).keyValid else b } := by
  cases i with
  | expandKey =>
    cases h : legalKeyLength e.keylen <;>
      simp [commandEffect, h, Engine.raise, Engine.clearKeyValid, Engine.ok, Engine.installKey,
        Engine.setKeyValid]
  | encrypt => simp [isKeyed] at hk
  | decrypt => simp [isKeyed] at hk
  | addRoundKey r => simp [isKeyed] at hk
  | hostWrite off v => simp [Instr.isCommand] at hi
  | hostRead off => simp [Instr.isCommand] at hi
  | _ => simp [commandEffect, Engine.ok, Engine.raise]

/-! ### When R201's codes occur -/

theorem resultCode_le_four (i : Instr) (e : Engine) : (resultCode i e).toNat ≤ 4 := by
  cases i with
  | expandKey | encrypt | decrypt | addRoundKey => simp only [resultCode]; split_ifs <;> decide
  | _ => simp [resultCode]

theorem keyValid_of_resultCode_eq_three {i : Instr} {e : Engine} (h : resultCode i e = 3) :
    e.keyValid = true := by
  cases hv : e.keyValid with
  | true => rfl
  | false =>
    cases i with
    | expandKey => simp only [resultCode] at h; split_ifs at h <;> simp at h
    | _ => simp [resultCode, hv] at h

theorem keyInvalid_of_resultCode_eq_one_or_two {i : Instr} {e : Engine} (hx : i ≠ .expandKey)
    (h : resultCode i e = 1 ∨ resultCode i e = 2) : e.keyValid = false := by
  cases hv : e.keyValid with
  | false => rfl
  | true =>
    cases i with
    | expandKey => exact absurd rfl hx
    | addRoundKey r => simp only [resultCode, hv] at h; split_ifs at h <;> simp at h
    | _ => simp [resultCode, hv] at h

/-! ### What a store leaves -/

@[simp] theorem storeByte_err (off : Offset) (v : Byte) (e : Engine) :
    (e.storeByte off v).err = e.err := by
  unfold Engine.storeByte; cases selectReg off <;> rfl

@[simp] theorem storeByte_nr (off : Offset) (v : Byte) (e : Engine) :
    (e.storeByte off v).nr = e.nr := by
  unfold Engine.storeByte; cases selectReg off <;> rfl

@[simp] theorem storeByte_rk (off : Offset) (v : Byte) (e : Engine) :
    (e.storeByte off v).rk = e.rk := by
  unfold Engine.storeByte; cases selectReg off <;> rfl

/-- A store to KEYLEN or to KEY clears KEY_VALID (R30). -/
theorem storeByte_keyValid_of_key {off : Offset} (h : off = 0x002 ∨ keyWindow off = true) (v : Byte)
    (e : Engine) : (e.storeByte off v).keyValid = false := by
  unfold Engine.storeByte
  obtain rfl | h := h
  · rfl
  · obtain ⟨k, rfl⟩ := (keyWindow_iff off).1 h
    rw [selectReg_key]
    rfl

/-- A store anywhere else leaves KEY_VALID. -/
theorem storeByte_keyValid_of_not_key {off : Offset} (h : ¬ (off = 0x002 ∨ keyWindow off = true))
    (v : Byte) (e : Engine) : (e.storeByte off v).keyValid = e.keyValid := by
  unfold Engine.storeByte
  cases hs : selectReg off with
  | keylen => exact absurd (.inl ((selectReg_eq_keylen_iff off).1 hs)) h
  | key k => exact absurd (.inr (keyWindow_of_selectReg hs)) h
  | _ => rfl

end Sys2Proof.Machine
end

section
/-! SUPPORT. The invariant `Engine.Inv`: each kind of update keeps it, so every instruction and every
step does, and it holds in every reachable state (10_state.md rule R31). -/

namespace Sys2Proof.Machine

namespace Engine.Inv

variable {e : Engine} (h : e.Inv)
include h

/-- The registers the invariant does not speak of are free. -/
theorem withData (c a b r : Byte) (st : Block) :
    { e with cmd := c, gfa := a, gfb := b, gfr := r, state := st }.Inv := { h with }

/-- Losing the key keeps the invariant, whatever KEYLEN and KEY then hold. -/
theorem dropKey (l : Byte) (k : KeyBytes) :
    { e with keyValid := false, keylen := l, key := k }.Inv :=
  { h with keyState := by simp, errNeedsNoKey := by simp }

/-- A code that fits KEY_VALID and NR may stand in ERR. -/
theorem withErr {x : BitVec 3} (legal : x.toNat ≤ 4) (noKey : x = 1 ∨ x = 2 → e.keyValid = false)
    (range : x = 3 → e.nr ≠ 0) : { e with err := x }.Inv :=
  { h with errLegal := legal, errNeedsNoKey := noKey, rangeNeedsRounds := range }

/-- With a valid key there are rounds. -/
theorem nr_ne_zero (hv : e.keyValid = true) : e.nr ≠ 0 := by
  obtain ⟨hl, hn, -⟩ := h.keyState hv
  rw [hn]
  obtain hr | hr | hr := nrOf_legal hl <;> rw [hr] <;> decide

theorem after_command {i : Instr} (hi : i.isCommand = true) : (commandEffect i e).Inv := by
  obtain ⟨-, hl, he⟩ | ⟨-, -, he⟩ | ⟨hx, b, g, he⟩ := commandEffect_cases hi e <;> rw [he]
  · exact e.ok.installKey_inv hl (.inl rfl)
  · exact (h.dropKey e.keylen e.key).withErr (by decide) (fun _ => rfl) (fun hc => by cases hc)
  · exact (h.withData e.cmd e.gfa e.gfb g b).withErr (resultCode_le_four i e)
      (keyInvalid_of_resultCode_eq_one_or_two hx)
      (fun h3 => h.nr_ne_zero (keyValid_of_resultCode_eq_three h3))

theorem after_store (off : Offset) (v : Byte) : (e.storeByte off v).Inv := by
  unfold Engine.storeByte
  cases selectReg off with
  | cmd => exact h.withData v e.gfa e.gfb e.gfr e.state
  | gfa => exact h.withData e.cmd v e.gfb e.gfr e.state
  | gfb => exact h.withData e.cmd e.gfa v e.gfr e.state
  | state k => exact h.withData e.cmd e.gfa e.gfb e.gfr (e.state.set k v)
  | keylen => exact h.dropKey v e.key
  | key k => exact h.dropKey e.keylen (e.key.set k v)
  | _ => exact h

theorem after_instr (i : Instr) : (instrEffect i e).Inv := by
  obtain ⟨hi, he⟩ | ⟨v, -, he⟩ | ⟨off, v, -, -, he⟩ | ⟨off, -, he⟩ := instrEffect_cases i e <;> rw [he]
  · exact h.after_command hi
  · exact (h.withData v e.gfa e.gfb e.gfr e.state).after_command (decodeCommand_isCommand v)
  · exact h.after_store off v
  · exact h

end Engine.Inv

theorem Engine.reset_inv : Engine.reset.Inv where
  keyState := by simp
  nrLegal := .inl rfl
  noKeyYet := fun _ => rfl
  zeroTail := by simp
  errLegal := by simp
  errNeedsNoKey := by simp
  rangeNeedsRounds := by simp

/-- A step runs one instruction, resets the engine, or holds it. -/
theorem step_keeps_inv {s t : State} (hs : s.engine.Inv) (h : step s = .next t) : t.engine.Inv := by
  obtain ⟨-, rfl⟩ | ⟨rest, -, rfl⟩ | ⟨x, rest, -, rfl⟩ := step_cases h
  · exact hs
  · exact Engine.reset_inv
  · exact hs.after_instr _

theorem Reachable.inv {s : State} (h : Reachable s) : s.engine.Inv := by
  induction h with
  | reset => exact Engine.reset_inv
  | host s inputs _ ih => exact ih
  | step s t _ hst ih => exact step_keeps_inv ih hst

/-- What a run answers is reachable. -/
theorem Reachable.run {k : Nat} {s t : State} (hs : Reachable s) (h : core.run k s = .next t) :
    Reachable t := by
  induction k generalizing s with
  | zero =>
    obtain rfl : s = t := Host.Outcome.next.inj h
    exact hs
  | succ k ih =>
    simp only [Host.Core.run] at h
    split at h
    next u hu => exact ih (.step s u hs hu) h
    all_goals cases h

end Sys2Proof.Machine
end

section
/-! SUPPORT. STATUS under the invariant: the bytes it can read as, and the one way to 0x03
(10_state.md rules R23, R31). -/

namespace Sys2Proof.Machine

/-- ERR = 3 right after a command comes with KEY_VALID = 1. -/
theorem commandEffect_keyValid_of_err_eq_three {i : Instr} (hi : i.isCommand = true) {e : Engine}
    (h : (commandEffect i e).err = 3) : (commandEffect i e).keyValid = true := by
  obtain ⟨-, -, he⟩ | ⟨-, -, he⟩ | ⟨-, b, g, he⟩ := commandEffect_cases hi e <;> rw [he] at h ⊢
  · rfl
  · cases h
  · exact keyValid_of_resultCode_eq_three (i := i) (e := e) h

/-- Under R31's clauses on ERR, with no clause for ERR = 3: eight values. -/
theorem statusByte_mem_eight {k : Bool} {x : BitVec 3} (legal : x.toNat ≤ 4)
    (noKey : x = 1 ∨ x = 2 → k = false) :
    statusByte k x ∈ ([0x00, 0x01, 0x02, 0x03, 0x04, 0x08, 0x0B, 0x0C] : List Byte) := by
  revert k x; decide

/-- Under all of R31's clauses on ERR: R31's seven values. -/
theorem statusByte_mem_seven {k : Bool} {x : BitVec 3} (legal : x.toNat ≤ 4)
    (noKey : x = 1 ∨ x = 2 → k = false) (range : x = 3 → k = true) :
    statusByte k x ∈ ([0x00, 0x01, 0x02, 0x04, 0x08, 0x0B, 0x0C] : List Byte) := by
  revert k x; decide

theorem statusByte_eq_three_iff (k : Bool) (x : BitVec 3) :
    statusByte k x = 0x03 ↔ k = false ∧ x = 3 := by
  revert k x; decide

theorem Engine.Inv.status_after_command {e : Engine} (h : e.Inv) {i : Instr}
    (hi : i.isCommand = true) :
    (commandEffect i e).byteAt 0x001 ∈
      ([0x00, 0x01, 0x02, 0x04, 0x08, 0x0B, 0x0C] : List Byte) :=
  have hc := h.after_command hi
  statusByte_mem_seven hc.errLegal hc.errNeedsNoKey (commandEffect_keyValid_of_err_eq_three hi)

theorem Engine.Inv.status_after_command_ne_three {e : Engine} (h : e.Inv) {i : Instr}
    (hi : i.isCommand = true) : (commandEffect i e).byteAt 0x001 ≠ 0x03 := fun h3 => by
  have hm := h.status_after_command hi
  rw [h3] at hm
  exact absurd hm (by decide)

/-- A store makes STATUS 0x03 only by clearing KEY_VALID under ERR = 3. -/
theorem storeByte_status_eq_three {off : Offset} {v : Byte} {e : Engine}
    (hn : e.byteAt 0x001 ≠ 0x03) (h : (e.storeByte off v).byteAt 0x001 = 0x03) :
    e.byteAt 0x001 = 0x0B ∧ (off = 0x002 ∨ keyWindow off = true) := by
  obtain ⟨hk, hx⟩ := (statusByte_eq_three_iff _ _).1 h
  rw [storeByte_err] at hx
  have hv : e.keyValid = true := by
    by_contra hv
    exact hn ((statusByte_eq_three_iff _ _).2 ⟨by simpa using hv, hx⟩)
  refine ⟨by simp [hv, hx, statusByte], by_contra fun ho => ?_⟩
  rw [storeByte_keyValid_of_not_key ho, hv] at hk
  cases hk

/-- The one way an instruction makes STATUS 0x03. -/
theorem Engine.Inv.instr_status_eq_three {e : Engine} (h : e.Inv) {i : Instr}
    (hn : e.byteAt 0x001 ≠ 0x03) (ht : (instrEffect i e).byteAt 0x001 = 0x03) :
    e.byteAt 0x001 = 0x0B ∧
      ∃ off v, i = .hostWrite off v ∧ (off = 0x002 ∨ keyWindow off = true) := by
  obtain ⟨hi, he⟩ | ⟨v, -, he⟩ | ⟨off, v, rfl, -, he⟩ | ⟨off, -, he⟩ := instrEffect_cases i e <;>
    rw [he] at ht
  · exact absurd ht (h.status_after_command_ne_three hi)
  · have hv := h.withData v e.gfa e.gfb e.gfr e.state
    exact absurd ht (hv.status_after_command_ne_three (decodeCommand_isCommand v))
  · obtain ⟨hB, ho⟩ := storeByte_status_eq_three hn ht
    exact ⟨hB, off, v, rfl, ho⟩
  · exact absurd ht hn

/-- The signals that decode to a host write are that write's. -/
theorem decodeSignals_eq_hostWrite {x : Txn} {off : Offset} {v : Byte}
    (h : decodeSignals x = .hostWrite off v) : x = ⟨true, off, v⟩ := by
  obtain ⟨w, o, d⟩ := x
  cases w with
  | true => cases h; rfl
  | false => cases h

/-- KEYLEN <- 16, EXPAND_KEY, ADD_ROUND_KEY 15 (which is out of range), KEYLEN <- 16. -/
def statusThreeProgram : List HostLine :=
  [.wr 0x002 0x10, .cmd .expandKey, .cmd (.addRoundKey 15), .wr 0x002 0x10]

end Sys2Proof.Machine
end

section
/-! The statements of 10_state.md: the engine's invariant, what the host can read, who writes KEY_VALID,
ERR, NR and RK, and the values of STATUS. -/

open Sys2Proof Sys2Proof.Machine

/-- Settles O25: an instruction is a command, a CMD write, a store or a read, and each keeps the
invariant; so does reset. -/
theorem stepKeepsTheEngineInvariant : Obligations.StepKeepsTheEngineInvariant :=
  fun _ _ => step_keeps_inv

/-- Settles O26: nothing is keyed, ERR is 0, and NR and RK are zero. -/
theorem resetMeetsTheEngineInvariant : Obligations.ResetMeetsTheEngineInvariant := Engine.reset_inv

/-- Settles O21: every field of the record stands at offsets of its own, KEY_VALID and ERR together in
STATUS, which determines both. -/
theorem everyRegisterIsReadable : Obligations.EveryRegisterIsReadable := by
  intro e e' h
  have hstate : e.state = e'.state := Vector.ext fun k hk =>
    (byteAt_state e ⟨k, hk⟩).symm.trans ((h _).trans (byteAt_state e' ⟨k, hk⟩))
  have hkey : e.key = e'.key := Vector.ext fun k hk =>
    (byteAt_key e ⟨k, hk⟩).symm.trans ((h _).trans (byteAt_key e' ⟨k, hk⟩))
  have hrk : e.rk = e'.rk := Vector.ext fun j hj =>
    (byteAt_rk e ⟨j, hj⟩).symm.trans ((h _).trans (byteAt_rk e' ⟨j, hj⟩))
  obtain ⟨hvalid, herr⟩ := statusByte_inj (h 0x001)
  have hcmd : e.cmd = e'.cmd := h 0x000
  have hkeylen : e.keylen = e'.keylen := h 0x002
  have hnr : e.nr = e'.nr := h 0x003
  have hgfa : e.gfa = e'.gfa := h 0x004
  have hgfb : e.gfb = e'.gfb := h 0x005
  have hgfr : e.gfr = e'.gfr := h 0x006
  cases e
  cases e'
  simp_all only

/-- Settles O23: the writers are EXPAND_KEY, the KEYLEN and KEY stores and reset, each by its own
lemma; the frame of everything else goes by the four kinds of effect. -/
theorem keyValidHasTheListedWritersAndReaders :
    Obligations.KeyValidHasTheListedWritersAndReaders := by
  refine ⟨fun s hl => ⟨_, exec_command_eq rfl s, ?_⟩, fun s hl => ⟨_, exec_command_eq rfl s, ?_⟩,
    fun off v s ho => ⟨_, exec_hostWrite_of_ne ?_ v s, storeByte_keyValid_of_key ho v _⟩, rfl,
    fun s rest hp => ⟨_, step_of_pending_reset hp, rfl⟩,
    fun i s hx hw hkey => ⟨_, exec_eq i s, ?_⟩, fun i s hk hv => ?_,
    fun i s b hi hk => ⟨_, exec_command_eq hi s, ?_⟩⟩
  · rw [commandEffect_expandKey_of_legal hl]
    rfl
  · rw [commandEffect_expandKey_of_illegal hl]
    rfl
  · rintro rfl
    exact absurd ho (by decide)
  · obtain ⟨hi, he⟩ | ⟨v, rfl, he⟩ | ⟨off, v, rfl, -, he⟩ | ⟨off, rfl, he⟩ :=
      instrEffect_cases i s.engine <;> rw [he]
    · exact commandEffect_keyValid hi hx _
    · refine commandEffect_keyValid (decodeCommand_isCommand v) (fun hv => hw ?_) _
      rw [(decodeCommand_eq_expandKey_iff v).1 hv]
    · obtain ⟨hne, hnk⟩ := hkey off v rfl
      exact storeByte_keyValid_of_not_key (not_or.2 ⟨hne, by simp [hnk]⟩) v _
  · rw [exec_command_eq (isCommand_of_isKeyed hk), commandEffect_keyed_of_invalid hk hv]
    rfl
  · rw [exec_command_eq hi]
    exact congrArg _ (congrArg s.withEngine (commandEffect_withKeyValid hi hk s.engine b))

/-- Settles O24: a command's ERR is R201's code and its effect does not read ERR; a store and a read
leave ERR. -/
theorem errIsWrittenByEveryCommandAndNothingElse :
    Obligations.ErrIsWrittenByEveryCommandAndNothingElse := by
  refine ⟨fun i s x hi => ⟨_, exec_command_eq hi s, ?_, commandEffect_err hi _⟩,
    fun off v s h => ⟨_, exec_hostWrite_of_ne h v s, storeByte_err off v _⟩,
    fun off s => ⟨_, exec_eq _ s, rfl⟩, rfl, fun s rest hp => ⟨_, step_of_pending_reset hp, rfl⟩⟩
  rw [exec_command_eq hi]
  exact congrArg _ (congrArg s.withEngine (commandEffect_withErr hi s.engine x))

/-- Settles O27: the invariant bounds STATUS in every reachable state, more tightly right after a
command; only a store can reach 0x03. -/
theorem reachableStatusIsOneOfEightValues : Obligations.ReachableStatusIsOneOfEightValues := by
  intro s hs
  have hinv := hs.inv
  refine ⟨statusByte_mem_eight hinv.errLegal hinv.errNeedsNoKey, fun v => ?_, fun t hst hn h3 => ?_⟩
  · have hi := decodeCommand_isCommand v
    have hv := hinv.withData v s.engine.gfa s.engine.gfb s.engine.gfr s.engine.state
    exact ⟨_, (exec_cmdWrite_eq v s).trans (exec_command_eq hi _), hv.status_after_command hi,
      fun h1 => (hv.after_command hi).errNeedsNoKey (.inl h1),
      commandEffect_keyValid_of_err_eq_three hi⟩
  · obtain ⟨-, rfl⟩ | ⟨rest, -, rfl⟩ | ⟨x, rest, hp, rfl⟩ := step_cases hst
    · exact absurd h3 hn
    · have h0 : Engine.reset.byteAt 0x001 = 0x03 := h3
      exact absurd h0 (by decide)
    · obtain ⟨hB, off, v, hx, ho⟩ := hinv.instr_status_eq_three hn h3
      exact ⟨hB, off, v, rest, decodeSignals_eq_hostWrite hx ▸ hp, ho⟩

/-- Settles O28: four steps from reset, the last a KEYLEN write after a ROUND_RANGE failure. -/
theorem statusThreeIsReachable : Obligations.StatusThreeIsReachable :=
  ⟨_, (Reachable.host _ _ .reset).run (k := 4)
    (show core.run 4 (State.reset.load statusThreeProgram) = .next _ from rfl), rfl, rfl, rfl⟩

/-- Settles O29: a store and a read leave NR and RK, and so does a command that is no successful
EXPAND_KEY. -/
theorem onlyExpandKeyChangesNrAndRk : Obligations.OnlyExpandKeyChangesNrAndRk := by
  intro i s hx
  refine ⟨_, exec_eq i s, ?_⟩
  obtain ⟨hi, he⟩ | ⟨v, rfl, he⟩ | ⟨off, v, rfl, -, he⟩ | ⟨off, rfl, he⟩ :=
    instrEffect_cases i s.engine <;> rw [he]
  · exact commandEffect_nr_rk hi fun h => hx (.inl h)
  · refine commandEffect_nr_rk (decodeCommand_isCommand v) fun hv => hx (.inr ?_)
    rw [(decodeCommand_eq_expandKey_iff v).1 hv]
  · exact ⟨storeByte_nr off v _, storeByte_rk off v _⟩
  · exact ⟨rfl, rfl⟩

end

section
/-! SUPPORT. The address map as equations: what a read answers, what a store leaves by the row of the
map, and that a store done twice is a store done once (20_memory.md rules R51 to R53, R57). -/

namespace Sys2Proof.Machine

/-- A read answers the byte of its offset. -/
theorem exec_hostRead_eq (off : Offset) (s : State) :
    exec (.hostRead off) s = .next (s.answer (s.engine.byteAt off)) := rfl

theorem exec_hostRead_of_byteAt {off : Offset} {v : Byte} {s : State} (h : s.engine.byteAt off = v) :
    exec (.hostRead off) s = .next { s with returned := s.returned ++ [v] } := by
  rw [exec_hostRead_eq, h]
  rfl

/-! ### What a store leaves, by the row of the map (the single-byte rows by `rfl`) -/

theorem storeByte_state (k : Fin 16) (v : Byte) (e : Engine) :
    e.storeByte (BitVec.ofNat 9 (0x010 + k.val)) v = { e with state := e.state.set k v } := by
  unfold Engine.storeByte
  rw [selectReg_state]

theorem storeByte_key (k : Fin 32) (v : Byte) (e : Engine) :
    e.storeByte (BitVec.ofNat 9 (0x020 + k.val)) v =
      { e with key := e.key.set k v, keyValid := false } := by
  unfold Engine.storeByte
  rw [selectReg_key]
  rfl

/-- R53's offsets: a store there is ignored. -/
theorem storeByte_ignored {off : Offset}
    (h : reservedOffset off = true ∨ off = 0x001 ∨ off = 0x003 ∨ off = 0x006 ∨ rkWindow off = true)
    (v : Byte) (e : Engine) : e.storeByte off v = e := by
  unfold Engine.storeByte
  obtain hr | rfl | rfl | rfl | hk := h
  · rw [(selectReg_reserved_iff off).2 hr]
  · rfl
  · rfl
  · rfl
  · obtain ⟨j, rfl⟩ := (rkWindow_iff off).1 hk
    rw [selectReg_rk]

/-- Storing the same byte again changes nothing. -/
theorem storeByte_storeByte_same (off : Offset) (v : Byte) (e : Engine) :
    (e.storeByte off v).storeByte off v = e.storeByte off v := by
  unfold Engine.storeByte
  cases selectReg off with
  | state k | key k => simp [Engine.clearKeyValid]
  | _ => rfl

/-! ### Reading back -/

/-- The read-write offsets, row by row. -/
theorem readWriteOffset_cases {off : Offset} (h : readWriteOffset off = true) :
    off = 0x002 ∨ off = 0x004 ∨ off = 0x005 ∨ (∃ k : Fin 16, off = BitVec.ofNat 9 (0x010 + k.val)) ∨
      ∃ k : Fin 32, off = BitVec.ofNat 9 (0x020 + k.val) := by
  simpa only [readWriteOffset, Bool.or_eq_true, beq_iff_eq, or_assoc, stateWindow_iff, keyWindow_iff]
    using h

theorem readWriteOffset_ne_cmd {off : Offset} (h : readWriteOffset off = true) : off ≠ 0x000 := by
  rintro rfl
  exact absurd h (by decide)

theorem ne_cmd_of_keyWrite {off : Offset} (h : off = 0x002 ∨ keyWindow off = true) : off ≠ 0x000 := by
  rintro rfl
  exact absurd h (by decide)

/-- A read-write offset reads as the byte stored there. -/
theorem byteAt_storeByte_same {off : Offset} (h : readWriteOffset off = true) (v : Byte)
    (e : Engine) : (e.storeByte off v).byteAt off = v := by
  obtain rfl | rfl | rfl | ⟨k, rfl⟩ | ⟨k, rfl⟩ := readWriteOffset_cases h
  · rfl
  · rfl
  · rfl
  · rw [storeByte_state, byteAt_state]
    simp
  · rw [storeByte_key, byteAt_key]
    simp

/-- Masking STATUS to its low three bits is clearing KEY_VALID (R23). -/
theorem statusByte_and_seven (k : Bool) (x : BitVec 3) :
    statusByte k x &&& 0x07 = statusByte false x := by
  revert k x; decide

/-- A store reaches STATUS only by clearing KEY_VALID. -/
theorem byteAt_status_storeByte (off : Offset) (v : Byte) (e : Engine) :
    (e.storeByte off v).byteAt 0x001 =
      if off = 0x002 ∨ keyWindow off = true then e.byteAt 0x001 &&& 0x07 else e.byteAt 0x001 := by
  have hstatus (e : Engine) : e.byteAt 0x001 = statusByte e.keyValid e.err := rfl
  rw [hstatus, hstatus, storeByte_err]
  split
  next hk => rw [storeByte_keyValid_of_key hk, statusByte_and_seven]
  next hk => rw [storeByte_keyValid_of_not_key hk]

end Sys2Proof.Machine
end

section
/-! SUPPORT. Runs, one instruction or one step at a time, and the ENCRYPT write (20_memory.md rules R57,
R59; 40_block_cipher.md rule R101). -/

namespace Sys2Proof.Machine

theorem runInstrs_cons_of_next {i : Instr} {s t : State} (h : exec i s = .next t) (is : List Instr) :
    runInstrs (i :: is) s = runInstrs is t := by
  simp only [runInstrs, h]

theorem run_succ_of_next {s t : State} (h : step s = .next t) (k : Nat) :
    core.run (k + 1) s = core.run k t := by
  have hc : core.step s = .next t := h
  simp only [Host.Core.run, hc]

/-- As many steps as there are transactions at the head of the port run their instructions. -/
theorem run_txns_eq_runInstrs (ts : List Txn) (rest : List PortInput) (s : State) :
    core.run ts.length { s with pending := ts.map PortInput.txn ++ rest } =
      runInstrs (ts.map decodeSignals) { s with pending := rest } := by
  induction ts generalizing s with
  | nil => rfl
  | cons x xs ih =>
    have hstep : step { s with pending := (x :: xs).map PortInput.txn ++ rest } = .next _ :=
      (step_of_pending_txn rfl).trans (exec_eq (decodeSignals x) _)
    have hexec : exec (decodeSignals x) { s with pending := rest } = .next _ := exec_eq _ _
    rw [List.length_cons, List.map_cons (f := decodeSignals), run_succ_of_next hstep,
      runInstrs_cons_of_next hexec]
    exact ih { s with
      engine := instrEffect (decodeSignals x) s.engine
      returned := s.returned ++ bytesReturned (decodeSignals x) s.engine }

/-- The engine after an ENCRYPT write with a valid key: CMD is 0x02, STATE encrypted, ERR 0 (R101). -/
def Engine.encryptWritten (e : Engine) : Engine :=
  { e with cmd := 0x02, state := cipher e.state e.nr.toNat e.rk, err := 0 }

theorem Engine.encryptWritten_twice_state (e : Engine) :
    e.encryptWritten.encryptWritten.state =
      cipher (cipher e.state e.nr.toNat e.rk) e.nr.toNat e.rk := rfl

theorem commandEffect_encrypt_of_valid {e : Engine} (h : e.keyValid = true) :
    commandEffect .encrypt e = { e with state := cipher e.state e.nr.toNat e.rk, err := 0 } := if_pos h

theorem exec_encryptWrite_of_valid {s : State} (h : s.engine.keyValid = true) :
    exec (.hostWrite 0x000 0x02) s = .next (s.withEngine s.engine.encryptWritten) := by
  have hd : decodeCommand 0x02 = .encrypt := by decide
  have hv : ({ s.engine with cmd := 0x02 } : Engine).keyValid = true := h
  rw [exec_cmdWrite_eq, hd, exec_command_eq rfl, State.withEngine_engine,
    commandEffect_encrypt_of_valid hv]
  rfl

/-- The first ENCRYPT write leaves the key valid, so the second one encrypts again. -/
theorem runInstrs_encryptWrite_twice {s : State} (h : s.engine.keyValid = true) :
    runInstrs [.hostWrite 0x000 0x02, .hostWrite 0x000 0x02] s =
      .next (s.withEngine s.engine.encryptWritten.encryptWritten) := by
  have h' : (s.withEngine s.engine.encryptWritten).engine.keyValid = true := h
  rw [runInstrs_cons_of_next (exec_encryptWrite_of_valid h),
    runInstrs_cons_of_next (exec_encryptWrite_of_valid h')]
  rfl

/-- KEYLEN = 16, KEY and STATE all zero, and the key expanded. -/
def zeroKeyed : State := State.reset.withEngine { Engine.reset with keylen := 0x10 }.installKey

theorem zeroKeyed_inv : zeroKeyed.engine.Inv := Engine.installKey_inv _ (by decide) (.inl rfl)

/-- Under the zero key, encrypting the zero block twice gives another block than encrypting it once. -/
theorem zeroKeyed_encryptWritten_twice_ne :
    zeroKeyed.engine.encryptWritten.encryptWritten.state ≠ zeroKeyed.engine.encryptWritten.state := by
  decide +kernel

end Sys2Proof.Machine
end

section
/-! The statements of 20_memory.md: transactions in issue order, the address map's reads and writes, the
offsets that ignore a write, reading back, and which transactions may be repeated. -/

open Sys2Proof Sys2Proof.Machine

/-- Settles O15, by induction on the transactions: a step takes the first and runs its instruction. -/
theorem stepsRunTransactionsInIssueOrder : Obligations.StepsRunTransactionsInIssueOrder :=
  run_txns_eq_runInstrs

/-- Settles O18: a reserved offset reads 0x00, and a store at any of these offsets is the identity. -/
theorem reservedAndReadOnlyOffsetsIgnoreWrites : Obligations.ReservedAndReadOnlyOffsetsIgnoreWrites := by
  refine ⟨fun off s h => ?_, fun off v s h => ?_⟩
  · exact exec_hostRead_of_byteAt (byteAt_reserved _ h)
  · have hne : off ≠ 0x000 := by
      rintro rfl
      exact absurd h (by decide)
    rw [exec_hostWrite_of_ne hne, storeByte_ignored h]
    rfl

/-- Settles O19: the write is a store, which reads back, reaches no other byte but STATUS, and there
clears KEY_VALID alone. -/
theorem readAfterWriteReturnsTheByteWritten : Obligations.ReadAfterWriteReturnsTheByteWritten :=
  fun off v s h => ⟨_, exec_hostWrite_of_ne (readWriteOffset_ne_cmd h) v s,
    byteAt_storeByte_same h v _, fun _ => byteAt_storeByte_of_ne v _,
    byteAt_status_storeByte off v _, rfl, rfl⟩

/-- Settles O20: reads change no register, two ENCRYPT writes encrypt twice (shown to differ from one on
the zero block under the zero key), and a store away from CMD is idempotent. -/
theorem onlyCmdWritesAreNotIdempotent : Obligations.OnlyCmdWritesAreNotIdempotent := by
  refine ⟨fun off s => ?_, exec_cmdWrite_eq,
    fun s h => ⟨_, runInstrs_encryptWrite_twice h, s.engine.encryptWritten_twice_state⟩,
    ⟨zeroKeyed, _, _, zeroKeyed_inv, rfl, exec_encryptWrite_of_valid rfl,
      runInstrs_encryptWrite_twice rfl, zeroKeyed_encryptWritten_twice_ne⟩,
    fun off v s hk => ⟨_, exec_hostWrite_of_ne (ne_cmd_of_keyWrite hk) v s,
      storeByte_keyValid_of_key hk v _⟩,
    fun off v s h => ⟨_, exec_hostWrite_of_ne h v s, ?_⟩⟩
  · rw [runInstrs_cons_of_next (exec_hostRead_eq off s), runInstrs_cons_of_next (exec_hostRead_eq off _)]
    simp [runInstrs, State.answer]
  · rw [exec_hostWrite_of_ne h, State.withEngine_engine, storeByte_storeByte_same,
      State.withEngine_withEngine]

/-- Settles O16: a read answers the byte of its offset, which the map gives row by row. -/
theorem hostReadReturnsTheMappedByte : Obligations.HostReadReturnsTheMappedByte := by
  intro s
  refine ⟨rfl, rfl, rfl, rfl, rfl, rfl, rfl, fun k => ?_, fun k => ?_, fun j => ?_⟩
  · exact exec_hostRead_of_byteAt (byteAt_state s.engine k)
  · exact exec_hostRead_of_byteAt (byteAt_key s.engine k)
  · exact exec_hostRead_of_byteAt (byteAt_rk s.engine j)

/-- Settles O17: none of these offsets is CMD, so each write is a store at its row of the map. -/
theorem hostWriteStoresWhereTheMapSays : Obligations.HostWriteStoresWhereTheMapSays := by
  intro s v
  refine ⟨rfl, rfl, rfl, fun k => ?_, fun k => ?_⟩
  · have hne : BitVec.ofNat 9 (0x010 + k.val) ≠ 0x000 := by revert k; decide
    rw [exec_hostWrite_of_ne hne, storeByte_state]
    rfl
  · have hne : BitVec.ofNat 9 (0x020 + k.val) ≠ 0x000 := by revert k; decide
    rw [exec_hostWrite_of_ne hne, storeByte_key]
    rfl

end

section
/-! SUPPORT. Encoding: decoder and encoder undo each other on command bytes and on transaction words, and
the two descriptions of the illegal space agree (30_encoding.md rules R73, R74, R77, R80). -/

namespace Sys2Proof

/-! ### The command byte -/

/-- Every command is the meaning of one byte, and every byte has its command (R74). -/
@[simp] theorem encode_decodeCommand (v : Byte) : encode (decodeCommand v) = .cmd8 v := by
  revert v; decide +kernel

/-- OP 0xC to 0xF names no command (R74). -/
theorem decodeCommand_illegal_of_op {v : Byte} (h : 0xC ≤ (opField v).toNat) :
    decodeCommand v = .illegalCmd v := by
  revert v; decide +kernel

/-- R80's mask test for ADD_ROUND_KEY passes for the bytes 0xRA, whose `R` is ARG. -/
theorem and_mask_eq_addRoundKey_iff (v : Byte) :
    v &&& 0x0F#8 = 0x0A#8 ↔ ∃ r : BitVec 4, v = commandByte r 0xA := by
  constructor
  · intro h
    have hop : opField v = 0xA := by revert v; decide +kernel
    exact ⟨argField v, by rw [← hop, commandByte_fields]⟩
  · rintro ⟨r, rfl⟩
    revert r; decide

theorem legalByte_iff (v : Byte) :
    legalByte v = true ↔ v.toNat ≤ 0x09 ∨ v = 0x0B ∨ ∃ r : BitVec 4, v = commandByte r 0xA := by
  rw [← and_mask_eq_addRoundKey_iff]
  simp [legalByte, or_assoc]

/-- R80's scan finds the row of the decoded command. -/
theorem scanRows_eq_rowIndex (v : Byte) : scanRows v = rowIndex (decodeCommand v) := by
  revert v; decide +kernel

/-- At most one row of R80's table matches a byte. -/
theorem commandRows_match_unique {v : Byte} {a b : CommandRow} (ha : a ∈ commandRows)
    (hb : b ∈ commandRows) (hav : a.matches v = true) (hbv : b.matches v = true) : a = b := by
  have key : ∀ v : Byte, ∀ a ∈ commandRows, ∀ b ∈ commandRows,
      a.matches v = true → b.matches v = true → a = b := by decide +kernel
  exact key v a ha b hb hav hbv

/-- A command has no row in R80's table exactly when it is the illegal command. -/
theorem rowIndex_decodeCommand_eq_none_iff (v : Byte) :
    rowIndex (decodeCommand v) = none ↔ decodeCommand v = .illegalCmd v := by
  cases hd : decodeCommand v with
  | illegalCmd b => simp [rowIndex, decodeCommand_illegal_eq hd]
  | hostWrite off d => simpa [hd, Instr.isCommand] using decodeCommand_isCommand v
  | hostRead off => simpa [hd, Instr.isCommand] using decodeCommand_isCommand v
  | _ => simp [rowIndex]

/-! ### The transaction word -/

/-- A word is refused for the one reason that it is a read with DATA (R77; notes/assumptions/4.md). -/
theorem decode_txn18_eq_error_iff (w : BitVec 18) :
    decode (.txn18 w) = .error .readWithData ↔ (txnOfWord w).w = false ∧ (txnOfWord w).data ≠ 0 := by
  simp only [decode]
  split
  next h => exact iff_of_true rfl h
  next h => exact iff_of_false nofun h

theorem decode_txn18_of_not_readWithData {w : BitVec 18}
    (h : ¬ ((txnOfWord w).w = false ∧ (txnOfWord w).data ≠ 0)) :
    decode (.txn18 w) = .ok (decodeSignals (txnOfWord w)) := if_neg h

/-- The signals the encoder drives make a word that the decoder takes apart again. -/
theorem decode_wordOfTxn_signalsOf (write : Bool) (off : Offset) (v : Byte) :
    decode (.txn18 (wordOfTxn (signalsOf write off v))) = .ok (decodeSignals (signalsOf write off v)) := by
  rw [decode_txn18_of_not_readWithData] <;> rw [txnOfWord_wordOfTxn]
  cases write <;> simp [signalsOf]

/-- Signals other than a read with DATA are those the encoder drives for the instruction they name. -/
theorem encode_decodeSignals {x : Txn} (h : ¬ (x.w = false ∧ x.data ≠ 0)) :
    encode (decodeSignals x) = .txn18 (wordOfTxn x) := by
  obtain ⟨w, off, data⟩ := x
  cases w with
  | true => rfl
  | false =>
    obtain rfl : data = 0 := by simpa using h
    rfl

/-! ### Both formats -/

theorem decode_encode {i : Instr} (h : i.wf = true) : decode (encode i) = .ok i := by
  cases i with
  | addRoundKey r => exact congrArg Except.ok (decodeCommand_addRoundKey r)
  | illegalCmd v =>
    exact congrArg Except.ok ((decodeCommand_illegal_iff v).2 (by simpa [Instr.wf] using h))
  | hostWrite off v => exact decode_wordOfTxn_signalsOf true off v
  | hostRead off => exact decode_wordOfTxn_signalsOf false off 0
  | _ => rfl

theorem encode_of_decode {w : TableWord} {i : Instr} (h : decode w = .ok i) : encode i = w := by
  cases w with
  | cmd8 v =>
    obtain rfl : decodeCommand v = i := Except.ok.inj h
    exact encode_decodeCommand v
  | txn18 w =>
    have hread : ¬ ((txnOfWord w).w = false ∧ (txnOfWord w).data ≠ 0) := fun hr => by
      rw [(decode_txn18_eq_error_iff w).2 hr] at h
      cases h
    rw [← Machine.decodeSignals_of_decode_txn18 h, encode_decodeSignals hread, wordOfTxn_txnOfWord]

theorem wf_of_decode {w : TableWord} {i : Instr} (h : decode w = .ok i) : i.wf = true := by
  cases w with
  | cmd8 v =>
    obtain rfl : decodeCommand v = i := Except.ok.inj h
    exact Machine.decodeCommand_wf v
  | txn18 w => exact Machine.decodeSignals_of_decode_txn18 h ▸ Machine.decodeSignals_wf _

namespace Machine

/-- A CMD write of an illegal byte stores it and reports ILLEGAL_CMD (R73, R74). -/
theorem exec_illegalWrite {v : Byte} (h : decodeCommand v = .illegalCmd v) (s : State) :
    exec (.hostWrite 0x000 v) s =
      .next { s with engine := { s.engine with cmd := v, err := 4 } } := by
  rw [exec_cmdWrite_eq, h]
  rfl

end Machine

end Sys2Proof
end

section
/-! SUPPORT. Writes and reads of consecutive bytes, byte by byte (30_encoding.md rule R79). -/

namespace Sys2Proof.Machine

theorem writeBytes_txns (base : Nat) (bs : List Byte) :
    (writeBytes base bs).map ProgramTxn.txn =
      (List.range bs.length).map fun j => ⟨true, BitVec.ofNat 9 (base + j), bs.getD j 0⟩ := by
  apply List.ext_getElem
  · simp [writeBytes]
  · intro j h _
    have hj : j < bs.length := by simpa [writeBytes] using h
    simp [writeBytes, wrTxn, signalsOf, offsetAt, hj]

theorem readBytes_some (base : Nat) (bs : List Byte) :
    readBytes base (bs.map some) = (List.range bs.length).map fun j =>
      ⟨⟨false, BitVec.ofNat 9 (base + j), 0⟩, some (bs.getD j 0)⟩ := by
  apply List.ext_getElem
  · simp [readBytes]
  · intro j h _
    have hj : j < bs.length := by simpa [readBytes] using h
    simp [readBytes, rdTxn, signalsOf, offsetAt, hj]

end Sys2Proof.Machine
end

section
/-! SUPPORT. The frame of every instruction, byte by byte: a command reaches the offsets of R72's column,
a store its own offset and STATUS (30_encoding.md rule R72, 20_memory.md rule R52). -/

namespace Sys2Proof.Machine

/-! ### Commands -/

/-- No command writes CMD, KEYLEN, KEY, GFA or GFB. -/
theorem commandEffect_eq_with {i : Instr} (hi : i.isCommand = true) (e : Engine) :
    commandEffect i e = { e with
      err := (commandEffect i e).err, keyValid := (commandEffect i e).keyValid
      state := (commandEffect i e).state, gfr := (commandEffect i e).gfr
      nr := (commandEffect i e).nr, rk := (commandEffect i e).rk } := by
  obtain ⟨-, -, h⟩ | ⟨-, -, h⟩ | ⟨-, b, g, h⟩ := commandEffect_cases hi e <;> rw [h] <;> rfl

/-- The registers a command may write, read away from those it does. -/
theorem byteAt_with_of_eq {off : Offset} {e : Engine} (x : BitVec 3) (b : Bool) {st : Block} {g n : Byte}
    {rk : RoundKeys} (status : off ≠ 0x001) (state : stateWindow off = true → st = e.state)
    (gfr : off = 0x006 → g = e.gfr) (nr : off = 0x003 → n = e.nr)
    (roundKeys : rkWindow off = true → rk = e.rk) :
    ({ e with err := x, keyValid := b, state := st, gfr := g, nr := n, rk := rk } : Engine).byteAt off =
      e.byteAt off := by
  unfold Engine.byteAt
  cases hs : selectReg off with
  | status => exact absurd ((selectReg_eq_status_iff off).1 hs) status
  | nr => exact nr ((selectReg_eq_nr_iff off).1 hs)
  | gfr => exact gfr ((selectReg_eq_gfr_iff off).1 hs)
  | state k => exact congrArg (·[k]) (state (stateWindow_of_selectReg hs))
  | rk j => exact congrArg (·[j]) (roundKeys (rkWindow_of_selectReg hs))
  | _ => rfl

/-- Every command writes STATUS. -/
theorem ne_status_of_commandWrites_eq_false {i : Instr} (hi : i.isCommand = true) {off : Offset}
    (h : commandWrites i off = false) : off ≠ 0x001 := by
  rintro rfl
  cases i with
  | hostWrite off v | hostRead off => cases hi
  | _ => simp [commandWrites] at h

theorem commandEffect_state_of_not_writes {i : Instr} {off : Offset} (h : commandWrites i off = false)
    (hoff : stateWindow off = true) (e : Engine) : (commandEffect i e).state = e.state := by
  cases i with
  | nop | gfMul | illegalCmd | hostWrite | hostRead => rfl
  | expandKey =>
    simp only [commandEffect]
    split <;> rfl
  | _ => simp [commandWrites, hoff] at h

/-- GF_MUL alone writes GFR. -/
theorem commandEffect_gfr {i : Instr} (h : i ≠ .gfMul) (e : Engine) :
    (commandEffect i e).gfr = e.gfr := by
  cases i with
  | gfMul => exact absurd rfl h
  | expandKey | encrypt | decrypt | addRoundKey => simp only [commandEffect]; split_ifs <;> rfl
  | _ => rfl

/-- The frame of a command. -/
theorem commandEffect_byteAt {i : Instr} (hi : i.isCommand = true) {off : Offset}
    (h : commandWrites i off = false) (e : Engine) :
    (commandEffect i e).byteAt off = e.byteAt off := by
  have hgfr : off = 0x006 → i ≠ .gfMul := by rintro rfl rfl; simp [commandWrites] at h
  have hnr : off = 0x003 → i ≠ .expandKey := by rintro rfl rfl; simp [commandWrites] at h
  have hrk : rkWindow off = true → i ≠ .expandKey := by rintro hw rfl; simp [commandWrites, hw] at h
  rw [commandEffect_eq_with hi e]
  exact byteAt_with_of_eq _ _ (ne_status_of_commandWrites_eq_false hi h)
    (fun hw => commandEffect_state_of_not_writes h hw e)
    (fun h6 => commandEffect_gfr (hgfr h6) e)
    (fun h3 => (commandEffect_nr_rk hi fun hx => absurd hx (hnr h3)).1)
    (fun hw => (commandEffect_nr_rk hi fun hx => absurd hx (hrk hw)).2)

theorem mayWrite_command {i : Instr} (hi : i.isCommand = true) (off : Offset) :
    mayWrite i off = commandWrites i off := by
  cases i with
  | hostWrite off v | hostRead off => cases hi
  | _ => rfl

/-! ### Stores -/

/-- CMD apart, a store outside the read-write offsets is ignored (R53). -/
theorem storeByte_of_not_readWrite {off : Offset} (h0 : off ≠ 0x000) (h : readWriteOffset off = false)
    (v : Byte) (e : Engine) : e.storeByte off v = e := by
  unfold Engine.storeByte
  cases hs : selectReg off with
  | cmd => exact absurd ((selectReg_eq_cmd_iff off).1 hs) h0
  | keylen => simp [readWriteOffset, (selectReg_eq_keylen_iff off).1 hs] at h
  | gfa => simp [readWriteOffset, (selectReg_eq_gfa_iff off).1 hs] at h
  | gfb => simp [readWriteOffset, (selectReg_eq_gfb_iff off).1 hs] at h
  | state k => simp [readWriteOffset, stateWindow_of_selectReg hs] at h
  | key k => simp [readWriteOffset, keyWindow_of_selectReg hs] at h
  | _ => rfl

/-- The frame of a store away from CMD: STATUS stays where KEY_VALID does, its own offset where the
store is ignored, and every other offset always. -/
theorem storeByte_byteAt {target off : Offset} {v : Byte} (h0 : target ≠ 0x000)
    (h : mayWrite (.hostWrite target v) off = false) (e : Engine) :
    (e.storeByte target v).byteAt off = e.byteAt off := by
  simp only [mayWrite, if_neg h0] at h
  by_cases hstatus : off = 0x001
  · subst hstatus
    have hkey : ¬ (target = 0x002 ∨ keyWindow target = true) := fun hk => by
      rw [if_pos hk] at h
      simp at h
    rw [byteAt_status_storeByte, if_neg hkey]
  · by_cases hsame : off = target
    · subst hsame
      split at h
      · simp at h
      · rw [storeByte_of_not_readWrite h0 (by simpa using h)]
    · exact byteAt_storeByte_of_ne v e hsame hstatus

/-! ### Every instruction -/

/-- The frame of a CMD write: the command's, but for CMD itself. -/
theorem cmdWrite_byteAt {v : Byte} {off : Offset} (h : mayWrite (.hostWrite 0x000 v) off = false)
    (e : Engine) : (commandEffect (decodeCommand v) { e with cmd := v }).byteAt off = e.byteAt off := by
  simp only [mayWrite, if_true, Bool.or_eq_false_iff, beq_eq_false_iff_ne] at h
  obtain ⟨hcmd, hwrites⟩ := h
  rw [commandEffect_byteAt (decodeCommand_isCommand v) hwrites]
  unfold Engine.byteAt
  cases hs : selectReg off with
  | cmd => exact absurd ((selectReg_eq_cmd_iff off).1 hs) hcmd
  | _ => rfl

theorem instrEffect_byteAt {i : Instr} {off : Offset} (h : mayWrite i off = false) (e : Engine) :
    (instrEffect i e).byteAt off = e.byteAt off := by
  obtain ⟨hi, he⟩ | ⟨v, rfl, he⟩ | ⟨target, v, rfl, h0, he⟩ | ⟨target, rfl, he⟩ :=
    instrEffect_cases i e <;> rw [he]
  · exact commandEffect_byteAt hi (mayWrite_command hi off ▸ h) e
  · exact cmdWrite_byteAt h e
  · exact storeByte_byteAt h0 h e

theorem bytesReturned_of_not_hostRead {i : Instr} (h : ∀ off, i ≠ .hostRead off) (e : Engine) :
    bytesReturned i e = [] := by
  cases i with
  | hostRead off => exact absurd rfl (h off)
  | _ => rfl

end Sys2Proof.Machine
end

section
/-! The statements of 30_encoding.md: decoding and encoding, the illegal space, the transaction word, the
pseudo-instructions, the CMD write, and the frame of every instruction. -/

open Sys2Proof Sys2Proof.Machine

/-- Settles O1: a command's byte names it, an illegal byte names itself, and a transaction's word carries
its signals. -/
theorem decodeOfEncodeIsTheInstruction : Obligations.DecodeOfEncodeIsTheInstruction :=
  fun _ => decode_encode

/-- Settles O2: the words that decode are the encoder's, and only a read with DATA does not decode. -/
theorem encodeOfDecodeIsTheWord : Obligations.EncodeOfDecodeIsTheWord :=
  ⟨fun _ _ h => ⟨wf_of_decode h, encode_of_decode h⟩, fun v => ⟨decodeCommand v, rfl⟩,
    decode_txn18_eq_error_iff, fun _ h => ⟨_, decode_txn18_of_not_readWithData h⟩⟩

/-- Settles O3, by running the decoder on each word. -/
theorem writtenOutWordsDecode : Obligations.WrittenOutWordsDecode := by
  unfold Obligations.WrittenOutWordsDecode
  decide

/-- Settles O4: the scan and the decoder agree byte by byte, and only the illegal command has no row. -/
theorem commandTableScanIsTheDecoder : Obligations.CommandTableScanIsTheDecoder := by
  refine ⟨scanRows_eq_rowIndex, fun _ _ ha _ hb => commandRows_match_unique ha hb, fun v => ?_⟩
  rw [scanRows_eq_rowIndex, rowIndex_decodeCommand_eq_none_iff]

/-- Settles O5: the illegal bytes are the complement of `legalByte`'s; the counts run over all 256. -/
theorem twoHundredTwentyNineBytesAreIllegal : Obligations.TwoHundredTwentyNineBytesAreIllegal := by
  refine ⟨fun _ _ => rfl, fun _ => decodeCommand_illegal_of_op, fun _ s h => exec_illegalWrite h s,
    fun v => ?_, by decide +kernel, by decide +kernel⟩
  rw [ne_eq, decodeCommand_illegal_iff, Bool.not_eq_false, legalByte_iff]

/-- Settles O6: such a byte decodes as illegal, and its write reports that. -/
theorem nonzeroArgIsIllegalExceptForAddRoundKey :
    Obligations.NonzeroArgIsIllegalExceptForAddRoundKey := by
  refine ⟨fun arg op s ha ho => ?_, fun arg => ⟨decodeCommand_addRoundKey arg, rfl⟩⟩
  have hop : op ≠ 0xA := by
    rintro rfl
    exact absurd ho (by decide)
  exact exec_illegalWrite (decodeCommand_commandByte_illegal ha hop) s

/-- Settles O7: the fields of the word are the signals it was made from. -/
theorem transactionWordHasItsFields : Obligations.TransactionWordHasItsFields := by
  have fields (write : Bool) (off : Offset) (v : Byte) :=
    Txn.mk.inj (txnOfWord_wordOfTxn (signalsOf write off v))
  exact ⟨fun off v => ⟨_, rfl, fields true off v⟩, fun off => ⟨_, rfl, fields false off 0⟩,
    rfl, rfl, rfl⟩

/-- Settles O8: the lines over byte lists go byte by byte, the others are their transactions outright. -/
theorem pseudoInstructionsExpand : Obligations.PseudoInstructionsExpand := by
  refine ⟨fun k => decide_eq_true_iff, rfl, fun v => rfl, fun k => ?_, fun b => ?_, fun b => ?_,
    fun r b => ?_, fun a b => rfl, fun r => rfl⟩
  · exact congrArg (_ :: ·) (writeBytes_txns 0x020 k)
  · exact (writeBytes_txns 0x010 b.toList).trans (by rw [Vector.length_toList])
  · exact (readBytes_some 0x010 b.toList).trans (by rw [Vector.length_toList])
  · exact (readBytes_some (0x100 + 16 * r.toNat) b.toList).trans (by rw [Vector.length_toList])

/-- Settles O13: a CMD write is the decoded command with CMD stored, and no command reads ERR. -/
theorem cmdWriteStoresThenExecutes : Obligations.CmdWriteStoresThenExecutes := by
  refine ⟨exec_cmdWrite_eq, rfl, rfl, rfl, rfl, rfl, rfl, rfl, rfl, rfl, rfl, decodeCommand_addRoundKey,
    rfl, fun arg op h => ?_, fun arg op ha ho => decodeCommand_commandByte_illegal ha ho,
    fun v x s => ?_⟩
  · exact decodeCommand_illegal_of_op (by rwa [opField_commandByte])
  · have hi := decodeCommand_isCommand v
    rw [exec_command_eq hi, exec_command_eq hi]
    exact congrArg _ (congrArg s.withEngine (commandEffect_withErr hi s.engine x))

/-- Settles O22: an instruction's effect reaches only the offsets it may write, the events to come are
not the engine's, and only a read returns a byte. -/
theorem instructionsChangeOnlyTheirOffsets : Obligations.InstructionsChangeOnlyTheirOffsets :=
  fun i s => ⟨_, exec_eq i s, fun _ h => instrEffect_byteAt h s.engine, rfl, fun h => by
    simp [bytesReturned_of_not_hostRead h s.engine]⟩

end

section
/-! SUPPORT. The laws of multiplication in GF(2^8) that the transforms need: `xtime` is linear, `gmul` is
linear on both sides and associative (44_gf_multiply.md rules R180 to R182). -/

namespace Sys2Proof.Machine

/-! ### Multiplication by x -/

theorem xtime_eq_xor (b : Byte) : xtime b = b <<< 1 ^^^ if b.getLsbD 7 then 0x1B else 0 := by
  unfold xtime
  split <;> simp

/-- The byte a bit selects is additive in the bit. -/
theorem ite_bit_xor (x y : Bool) (a : Byte) :
    (if (x ^^ y) then a else 0) = (if x then a else 0) ^^^ if y then a else 0 := by
  cases x <;> cases y <;> simp

/-- The byte a bit selects is additive in the byte. -/
theorem ite_xor_bit (x : Bool) (a b : Byte) :
    (if x then a ^^^ b else 0) = (if x then a else 0) ^^^ if x then b else 0 := by
  cases x <;> simp

theorem xtime_xor (a b : Byte) : xtime (a ^^^ b) = xtime a ^^^ xtime b := by
  simp only [xtime_eq_xor, BitVec.getLsbD_xor, BitVec.shiftLeft_xor_distrib, ite_bit_xor]
  ac_rfl

theorem xtime_ite (x : Bool) (a : Byte) :
    xtime (if x then a else 0) = if x then xtime a else 0 := by
  cases x <;> simp [xtime]

/-! ### The loop of R181 -/

/-- One iteration, the accumulator's branch as a summand. -/
theorem gmulLoop_succ (n : Nat) (p a b : Byte) :
    gmulLoop (n + 1) p a b =
      gmulLoop n (p ^^^ if b.getLsbD 0 then a else 0) (xtime a) (b >>> 1) := by
  rw [gmulLoop]
  cases b.getLsbD 0 <;> simp

/-- The loop is linear in the accumulator and the multiplier together. -/
theorem gmulLoop_xor_right (n : Nat) (p q a b c : Byte) :
    gmulLoop n (p ^^^ q) a (b ^^^ c) = gmulLoop n p a b ^^^ gmulLoop n q a c := by
  induction n generalizing p q a b c with
  | zero => rfl
  | succ n ih =>
    simp only [gmulLoop_succ, ← ih, BitVec.ushiftRight_xor_distrib, BitVec.getLsbD_xor, ite_bit_xor]
    congr 1
    ac_rfl

/-- The loop is linear in the accumulator and the multiplicand together. -/
theorem gmulLoop_xor_left (n : Nat) (p q a b c : Byte) :
    gmulLoop n (p ^^^ q) (a ^^^ b) c = gmulLoop n p a c ^^^ gmulLoop n q b c := by
  induction n generalizing p q a b c with
  | zero => rfl
  | succ n ih =>
    simp only [gmulLoop_succ, ← ih, xtime_xor, ite_xor_bit]
    congr 1
    ac_rfl

/-- Doubling accumulator and multiplicand doubles the result. -/
theorem gmulLoop_xtime (n : Nat) (p a b : Byte) :
    gmulLoop n (xtime p) (xtime a) b = xtime (gmulLoop n p a b) := by
  induction n generalizing p a b with
  | zero => rfl
  | succ n ih => simp only [gmulLoop_succ, ← ih, xtime_xor, xtime_ite]

/-- One iteration split off at the end: the last bit read adds its multiple. -/
theorem gmulLoop_succ_last (n : Nat) (p a b : Byte) :
    gmulLoop (n + 1) p a b = gmulLoop n p a b ^^^ if b.getLsbD n then xtime^[n] a else 0 := by
  induction n generalizing p a b with
  | zero => exact gmulLoop_succ 0 p a b
  | succ n ih =>
    rw [gmulLoop_succ, ih, gmulLoop_succ n, BitVec.getLsbD_ushiftRight, Nat.add_comm 1 n]
    rfl

/-- A multiplier shifted left by one needs one iteration more, on the doubled multiplicand. -/
theorem gmulLoop_shiftLeft {n : Nat} (h : n ≤ 7) (p a b : Byte) :
    gmulLoop (n + 1) p a (b <<< 1) = gmulLoop n p (xtime a) b := by
  induction n with
  | zero => simp [gmulLoop]
  | succ n ih =>
    have hbit : (b <<< 1).getLsbD (n + 1) = b.getLsbD n := by
      simp [show n + 1 < 8 by omega, BitVec.getLsbD_eq_getElem (show n < 8 by omega)]
    rw [gmulLoop_succ_last, ih (by omega), gmulLoop_succ_last, hbit]
    rfl

/-! ### The product -/

theorem gmul_xor_right (a b c : Byte) : gmul a (b ^^^ c) = gmul a b ^^^ gmul a c :=
  gmulLoop_xor_right 8 0 0 a b c

theorem gmul_xor_left (a b c : Byte) : gmul (a ^^^ b) c = gmul a c ^^^ gmul b c :=
  gmulLoop_xor_left 8 0 0 a b c

theorem gmul_xtime_left (a b : Byte) : gmul (xtime a) b = xtime (gmul a b) :=
  gmulLoop_xtime 8 0 a b

@[simp] theorem gmul_zero_right (a : Byte) : gmul a 0x00#8 = 0x00 := by revert a; decide +kernel

@[simp] theorem gmul_zero_left (b : Byte) : gmul 0x00#8 b = 0x00 := by revert b; decide +kernel

@[simp] theorem gmul_one_left (b : Byte) : gmul 0x01#8 b = b := by revert b; decide +kernel

/-- `0x1B` is the eighth power of x (R15, R180). -/
theorem gmul_reduction (a : Byte) : gmul a 0x1B = xtime^[8] a := by revert a; decide +kernel

/-- Doubling the multiplier doubles the product: the bit shifted out of it is the one `0x1B` stands for. -/
theorem gmul_xtime_right (a b : Byte) : gmul a (xtime b) = xtime (gmul a b) := by
  have hshift : gmul a (b <<< 1) = gmulLoop 7 0 (xtime a) b := gmulLoop_shiftLeft le_rfl 0 a b
  have hlast : gmul (xtime a) b = gmulLoop 7 0 (xtime a) b ^^^ if b.getLsbD 7 then xtime^[8] a else 0 :=
    gmulLoop_succ_last 7 0 (xtime a) b
  rw [← gmul_xtime_left, hlast, ← hshift, xtime_eq_xor, gmul_xor_right, ← gmul_reduction]
  cases b.getLsbD 7
  · exact congrArg _ (gmul_zero_right a)
  · rfl

/-- A constant factor goes into the accumulator and the multiplicand. -/
theorem gmul_gmulLoop (n : Nat) (a p b c : Byte) :
    gmul a (gmulLoop n p b c) = gmulLoop n (gmul a p) (gmul a b) c := by
  induction n generalizing p b c with
  | zero => rfl
  | succ n ih =>
    rw [gmulLoop_succ, ih, gmulLoop_succ, gmul_xor_right, gmul_xtime_right]
    cases c.getLsbD 0 <;> simp

theorem gmul_assoc (a b c : Byte) : gmul (gmul a b) c = gmul a (gmul b c) := by
  calc gmul (gmul a b) c = gmulLoop 8 (gmul a 0) (gmul a b) c :=
        congrArg (gmulLoop 8 · (gmul a b) c) (gmul_zero_right a).symm
    _ = gmul a (gmul b c) := (gmul_gmulLoop 8 a 0 b c).symm

end Sys2Proof.Machine
end

section
/-! SUPPORT. The transforms and their inverses undo each other on every block (42_round_transforms.md rule
R148, 43_inverse_transforms.md rule R167). -/

namespace Sys2Proof.Machine

/-! ### The S-box, ShiftRows and AddRoundKey, byte by byte -/

@[simp] theorem invSbox_sbox (v : Byte) : invSbox (sbox v) = v := by revert v; decide +kernel

@[simp] theorem sbox_invSbox (v : Byte) : sbox (invSbox v) = v := by revert v; decide +kernel

@[simp] theorem shiftSource_invShiftSource (k : Fin 16) : shiftSource (invShiftSource k) = k := by
  revert k; decide

@[simp] theorem invShiftSource_shiftSource (k : Fin 16) : invShiftSource (shiftSource k) = k := by
  revert k; decide

theorem getElem_subBytes (b : Block) (k : Fin 16) : (subBytes b)[k] = sbox b[k] := by
  simp [subBytes]

theorem getElem_invSubBytes (b : Block) (k : Fin 16) : (invSubBytes b)[k] = invSbox b[k] := by
  simp [invSubBytes]

theorem getElem_shiftRows (b : Block) (k : Fin 16) : (shiftRows b)[k] = b[shiftSource k] := by
  simp [shiftRows]

theorem getElem_invShiftRows (b : Block) (k : Fin 16) :
    (invShiftRows b)[k] = b[invShiftSource k] := by
  simp [invShiftRows]

theorem getElem_addRoundKey (b : Block) (rk : RoundKeys) (r : Nat) (k : Fin 16) :
    (addRoundKey b rk r)[k] = b[k] ^^^ roundKeyByte rk (16 * r + k.val) := by
  simp [addRoundKey]

/-- Blocks with the same bytes are the same. -/
theorem block_ext {a b : Block} (h : ∀ k : Fin 16, a[k] = b[k]) : a = b :=
  Vector.ext fun k hk => h ⟨k, hk⟩

@[simp] theorem invSubBytes_subBytes (b : Block) : invSubBytes (subBytes b) = b :=
  block_ext fun k => by rw [getElem_invSubBytes, getElem_subBytes, invSbox_sbox]

@[simp] theorem subBytes_invSubBytes (b : Block) : subBytes (invSubBytes b) = b :=
  block_ext fun k => by rw [getElem_subBytes, getElem_invSubBytes, sbox_invSbox]

@[simp] theorem invShiftRows_shiftRows (b : Block) : invShiftRows (shiftRows b) = b :=
  block_ext fun k => by simp only [getElem_invShiftRows, getElem_shiftRows, shiftSource_invShiftSource]

@[simp] theorem shiftRows_invShiftRows (b : Block) : shiftRows (invShiftRows b) = b :=
  block_ext fun k => by simp only [getElem_shiftRows, getElem_invShiftRows, invShiftSource_shiftSource]

@[simp] theorem addRoundKey_addRoundKey (b : Block) (rk : RoundKeys) (r : Nat) :
    addRoundKey (addRoundKey b rk r) rk r = b :=
  block_ext fun k => by
    rw [getElem_addRoundKey, getElem_addRoundKey, BitVec.xor_assoc, BitVec.xor_self, BitVec.xor_zero]

/-! ### Columns (R14) -/

theorem byte_column (b : Block) (c r : Fin 4) : (column b c).byte r.val = b[4 * c.val + r.val] := by
  match r with
  | 0 | 1 | 2 | 3 => rfl

theorem getElem_ofColumns (f : Fin 4 → Word) (k : Fin 16) :
    (ofColumns f)[k] = (f ⟨k.val / 4, by omega⟩).byte (k.val % 4) := by
  simp [ofColumns]

@[simp] theorem ofColumns_column (b : Block) : ofColumns (column b) = b :=
  block_ext fun k => by
    rw [getElem_ofColumns, byte_column b ⟨k.val / 4, by omega⟩ ⟨k.val % 4, by omega⟩]
    simp [Nat.div_add_mod]

@[simp] theorem column_ofColumns (f : Fin 4 → Word) (c : Fin 4) : column (ofColumns f) c = f c := by
  have hdiv : ∀ r < 4, (4 * c.val + r) / 4 = c.val := fun r hr => by omega
  simp [column, ofColumns, Word.byte, hdiv]

/-! ### Matrices over GF(2^8) (R146, R165) -/

/-- A row times a matrix: entry `j` is the row times column `j`. -/
def rowTimesMatrix (w : Word) (n : Matrix4) : Word :=
  ⟨rowTimesColumn w ⟨n.r0.a0, n.r1.a0, n.r2.a0, n.r3.a0⟩,
   rowTimesColumn w ⟨n.r0.a1, n.r1.a1, n.r2.a1, n.r3.a1⟩,
   rowTimesColumn w ⟨n.r0.a2, n.r1.a2, n.r2.a2, n.r3.a2⟩,
   rowTimesColumn w ⟨n.r0.a3, n.r1.a3, n.r2.a3, n.r3.a3⟩⟩

/-- The matrix product. -/
def Matrix4.mul (m n : Matrix4) : Matrix4 :=
  ⟨rowTimesMatrix m.r0 n, rowTimesMatrix m.r1 n, rowTimesMatrix m.r2 n, rowTimesMatrix m.r3 n⟩

/-- The unit matrix. -/
def Matrix4.unit : Matrix4 := ⟨⟨1, 0, 0, 0⟩, ⟨0, 1, 0, 0⟩, ⟨0, 0, 1, 0⟩, ⟨0, 0, 0, 1⟩⟩

theorem rowTimesColumn_matrixTimesColumn (w s : Word) (n : Matrix4) :
    rowTimesColumn w (matrixTimesColumn n s) = rowTimesColumn (rowTimesMatrix w n) s := by
  simp only [matrixTimesColumn, rowTimesMatrix, rowTimesColumn, gmul_xor_left, gmul_xor_right,
    gmul_assoc]
  ac_rfl

theorem matrixTimesColumn_mul (m n : Matrix4) (s : Word) :
    matrixTimesColumn (m.mul n) s = matrixTimesColumn m (matrixTimesColumn n s) := by
  simp only [Matrix4.mul, matrixTimesColumn, ← rowTimesColumn_matrixTimesColumn]

@[simp] theorem matrixTimesColumn_unit (s : Word) : matrixTimesColumn .unit s = s := by
  simp [matrixTimesColumn, rowTimesColumn, Matrix4.unit]

/-- M' is the inverse of M. -/
theorem invMixMatrix_mul_mixMatrix : invMixMatrix.mul mixMatrix = .unit := by decide

theorem mixMatrix_mul_invMixMatrix : mixMatrix.mul invMixMatrix = .unit := by decide

@[simp] theorem invMixColumns_mixColumns (b : Block) : invMixColumns (mixColumns b) = b := by
  simp [invMixColumns, mixColumns, ← matrixTimesColumn_mul, invMixMatrix_mul_mixMatrix]

@[simp] theorem mixColumns_invMixColumns (b : Block) : mixColumns (invMixColumns b) = b := by
  simp [invMixColumns, mixColumns, ← matrixTimesColumn_mul, mixMatrix_mul_invMixMatrix]

end Sys2Proof.Machine
end

section
/-! SUPPORT. Cipher and InvCipher: each round is undone by its inverse round, and the loops in opposite
order undo each other (40_block_cipher.md rules R103 to R105). -/

namespace Sys2Proof.Machine

/-- Steps with left inverses are undone in the opposite order. -/
theorem foldl_reverse_foldl {α β : Type} {f g : α → β → α} (h : ∀ a r, g (f a r) r = a)
    (rs : List β) (a : α) : rs.reverse.foldl g (rs.foldl f a) = a := by
  induction rs generalizing a with
  | nil => rfl
  | cons r rs ih => rw [List.foldl_cons, List.reverse_cons, List.foldl_append, ih]; exact h a r

theorem invCipherRound_cipherRound (rk : RoundKeys) (b : Block) (r : Nat) :
    invCipherRound rk (cipherRound rk b r) r = b := by
  simp [invCipherRound, cipherRound]

theorem cipherRound_invCipherRound (rk : RoundKeys) (b : Block) (r : Nat) :
    cipherRound rk (invCipherRound rk b r) r = b := by
  simp [invCipherRound, cipherRound]

theorem invCipher_cipher (b : Block) (nr : Nat) (rk : RoundKeys) :
    invCipher (cipher b nr rk) nr rk = b := by
  simp [invCipher, cipher, foldl_reverse_foldl (invCipherRound_cipherRound rk)]

theorem cipher_invCipher (b : Block) (nr : Nat) (rk : RoundKeys) :
    cipher (invCipher b nr rk) nr rk = b := by
  have hloop := foldl_reverse_foldl (cipherRound_invCipherRound rk) (List.range' 1 (nr - 1)).reverse
  rw [List.reverse_reverse] at hloop
  simp only [invCipher, cipher, addRoundKey_addRoundKey, hloop, subBytes_invSubBytes,
    shiftRows_invShiftRows]

end Sys2Proof.Machine
end

section
/-! SUPPORT. The block commands: each answers the state with STATE transformed and ERR 0, so a sequence of
them transforms STATE by one after another, and R107's and R108's sequences do what ENCRYPT and DECRYPT
do (40_block_cipher.md rules R101, R102, R107, R108). -/

namespace Sys2Proof.Machine

/-! ### STATE replaced, ERR 0 -/

/-- What a successful block command leaves: a new STATE, and ERR 0. -/
def State.withBlock (s : State) (b : Block) : State :=
  s.withEngine { s.engine with state := b, err := 0 }

@[simp] theorem State.withBlock_state (s : State) (b : Block) : (s.withBlock b).engine.state = b := rfl
@[simp] theorem State.withBlock_err (s : State) (b : Block) : (s.withBlock b).engine.err = 0 := rfl
@[simp] theorem State.withBlock_keyValid (s : State) (b : Block) :
    (s.withBlock b).engine.keyValid = s.engine.keyValid := rfl
@[simp] theorem State.withBlock_nr (s : State) (b : Block) : (s.withBlock b).engine.nr = s.engine.nr := rfl
@[simp] theorem State.withBlock_rk (s : State) (b : Block) : (s.withBlock b).engine.rk = s.engine.rk := rfl

/-- STATUS after a block command with a valid key is 0x08. -/
theorem State.withBlock_status {s : State} (h : s.engine.keyValid = true) (b : Block) :
    (s.withBlock b).engine.status = 0x08 := by
  rw [Engine.status, State.withBlock_keyValid, State.withBlock_err, h]
  rfl

/-- EXPAND_KEY with a legal KEYLEN (R122). -/
theorem exec_expandKey_of_legal {s : State} (h : legalKeyLength s.engine.keylen = true) :
    exec .expandKey s = .next (s.withEngine s.engine.installKey.ok) := by
  rw [exec_command_eq rfl, commandEffect_expandKey_of_legal h]

theorem exec_encrypt_of_valid {s : State} (h : s.engine.keyValid = true) :
    exec .encrypt s = .next (s.withBlock (cipher s.engine.state s.engine.nr.toNat s.engine.rk)) :=
  requireKey_of_valid h _

theorem exec_decrypt_of_valid {s : State} (h : s.engine.keyValid = true) :
    exec .decrypt s = .next (s.withBlock (invCipher s.engine.state s.engine.nr.toNat s.engine.rk)) :=
  requireKey_of_valid h _

/-- A keyed command without a valid key is NO_KEY (R30). -/
theorem exec_keyed_of_invalid {i : Instr} (hk : isKeyed i = true) {s : State}
    (h : s.engine.keyValid = false) :
    exec i s = .next { s with engine := { s.engine with err := 2 } } := by
  rw [exec_command_eq (isCommand_of_isKeyed hk), commandEffect_keyed_of_invalid hk h]
  rfl

/-- With a valid key the invariant gives NR as a number: KEYLEN div 4 + 6 (R25, R31). -/
theorem Engine.Inv.nr_toNat {e : Engine} (h : e.Inv) (hv : e.keyValid = true) :
    e.nr.toNat = e.keylen.toNat / 4 + 6 := by
  obtain ⟨hl, hn, -⟩ := h.keyState hv
  have hlt : nrOf (nkOf e.keylen) < 256 := by have := nrOf_legal hl; omega
  rw [hn, BitVec.toNat_ofNat, Nat.mod_eq_of_lt hlt]
  rfl

/-! ### Sequences of single transforms -/

/-- The commands of one transform each, ADD_ROUND_KEY up to round `nr`. -/
def isTransform (nr : Nat) : Instr → Bool
  | .subBytes | .invSubBytes | .shiftRows | .invShiftRows | .mixColumns | .invMixColumns => true
  | .addRoundKey r => decide (r.toNat ≤ nr)
  | _ => false

/-- The transform such a command applies to STATE. -/
def transformOf (rk : RoundKeys) (b : Block) : Instr → Block
  | .subBytes => subBytes b
  | .invSubBytes => invSubBytes b
  | .shiftRows => shiftRows b
  | .invShiftRows => invShiftRows b
  | .mixColumns => mixColumns b
  | .invMixColumns => invMixColumns b
  | .addRoundKey r => addRoundKey b rk r.toNat
  | _ => b

theorem exec_transform {i : Instr} {s : State} (hv : s.engine.keyValid = true)
    (hi : isTransform s.engine.nr.toNat i = true) :
    exec i s = .next (s.withBlock (transformOf s.engine.rk s.engine.state i)) := by
  cases i with
  | addRoundKey r => exact execAddRoundKey_of_le hv (of_decide_eq_true hi)
  | subBytes | invSubBytes | shiftRows | invShiftRows | mixColumns | invMixColumns => rfl
  | _ => cases hi

/-- A transform, even one that fails, leaves KEY_VALID, NR and RK. -/
theorem exec_transform_frame {nr : Nat} {i : Instr} (hi : isTransform nr i = true) (s : State) :
    ∃ t : State, exec i s = .next t ∧ t.engine.keyValid = s.engine.keyValid ∧
      t.engine.nr = s.engine.nr ∧ t.engine.rk = s.engine.rk := by
  have hc : i.isCommand = true := by
    cases i with
    | hostWrite off v | hostRead off => cases hi
    | _ => rfl
  have hx : i ≠ .expandKey := by rintro rfl; cases hi
  exact ⟨_, exec_command_eq hc s, commandEffect_keyValid hc hx s.engine,
    commandEffect_nr_rk hc fun h => absurd h hx⟩

/-- Transforms one after another, at least one. -/
theorem runInstrs_transforms {is : List Instr} {s : State} (hne : is ≠ [])
    (hv : s.engine.keyValid = true) (hi : ∀ i ∈ is, isTransform s.engine.nr.toNat i = true) :
    runInstrs is s = .next (s.withBlock (is.foldl (transformOf s.engine.rk) s.engine.state)) := by
  induction is generalizing s with
  | nil => exact absurd rfl hne
  | cons i is ih =>
    obtain ⟨hhead, htail⟩ := List.forall_mem_cons.1 hi
    rw [runInstrs_cons_of_next (exec_transform hv hhead)]
    cases is with
    | nil => rfl
    | cons j js => exact ih (List.cons_ne_nil j js) hv htail

theorem isTransform_addKeyOf {r nr : Nat} (h : r ≤ nr) : isTransform nr (addKeyOf r) = true := by
  simpa [isTransform, addKeyOf] using (Nat.mod_le r 16).trans h

theorem transformOf_addKeyOf {r : Nat} (h : r < 16) (rk : RoundKeys) (b : Block) :
    transformOf rk b (addKeyOf r) = addRoundKey b rk r := by
  simp [transformOf, addKeyOf, Nat.mod_eq_of_lt h]

/-- Rounds that are each a few commands. -/
theorem foldl_flatMap_transforms {rs : List Nat} {commands : Nat → List Instr}
    {round : Block → Nat → Block} {rk : RoundKeys}
    (h : ∀ b, ∀ r ∈ rs, (commands r).foldl (transformOf rk) b = round b r) (b : Block) :
    (rs.flatMap commands).foldl (transformOf rk) b = rs.foldl round b := by
  rw [List.foldl_flatMap]
  exact List.foldl_ext _ _ _ h

/-! ### R107's and R108's sequences -/

theorem isTransform_of_mem_encryptSequence (nr : Nat) :
    ∀ i ∈ encryptSequence nr, isTransform nr i = true := by
  have hround : ∀ r ∈ List.range' 1 (nr - 1), isTransform nr (addKeyOf r) = true := fun r hr =>
    isTransform_addKeyOf (by rw [List.mem_range'_1] at hr; omega)
  simp only [encryptSequence, List.forall_mem_append, List.forall_mem_cons, List.forall_mem_flatMap]
  exact ⟨⟨isTransform_addKeyOf (Nat.zero_le nr), fun r hr => ⟨rfl, rfl, rfl, hround r hr, nofun⟩⟩,
    rfl, rfl, isTransform_addKeyOf le_rfl, nofun⟩

theorem isTransform_of_mem_decryptSequence (nr : Nat) :
    ∀ i ∈ decryptSequence nr, isTransform nr i = true := by
  have hround : ∀ r ∈ (List.range' 1 (nr - 1)).reverse, isTransform nr (addKeyOf r) = true := fun r hr =>
    isTransform_addKeyOf (by rw [List.mem_reverse, List.mem_range'_1] at hr; omega)
  simp only [decryptSequence, List.forall_mem_append, List.forall_mem_cons, List.forall_mem_flatMap]
  exact ⟨⟨⟨isTransform_addKeyOf le_rfl, rfl, rfl, nofun⟩,
    fun r hr => ⟨hround r hr, rfl, rfl, rfl, nofun⟩⟩, isTransform_addKeyOf (Nat.zero_le nr), nofun⟩

theorem foldl_encryptSequence {nr : Nat} (h : nr < 16) (rk : RoundKeys) (b : Block) :
    (encryptSequence nr).foldl (transformOf rk) b = cipher b nr rk := by
  have hround : ∀ c, ∀ r ∈ List.range' 1 (nr - 1),
      [.subBytes, .shiftRows, .mixColumns, addKeyOf r].foldl (transformOf rk) c = cipherRound rk c r :=
    fun c r hr => transformOf_addKeyOf (by rw [List.mem_range'_1] at hr; omega) rk _
  simp only [encryptSequence, List.foldl_append, List.foldl_cons, List.foldl_nil,
    foldl_flatMap_transforms hround, transformOf_addKeyOf h, transformOf_addKeyOf (show 0 < 16 by decide)]
  rfl

theorem foldl_decryptSequence {nr : Nat} (h : nr < 16) (rk : RoundKeys) (b : Block) :
    (decryptSequence nr).foldl (transformOf rk) b = invCipher b nr rk := by
  have hround : ∀ c, ∀ r ∈ (List.range' 1 (nr - 1)).reverse,
      [addKeyOf r, .invMixColumns, .invShiftRows, .invSubBytes].foldl (transformOf rk) c =
        invCipherRound rk c r := fun c r hr => by
    rw [List.mem_reverse, List.mem_range'_1] at hr
    simp only [List.foldl_cons, transformOf_addKeyOf (show r < 16 by omega)]
    rfl
  simp only [decryptSequence, List.foldl_append, List.foldl_cons, List.foldl_nil,
    foldl_flatMap_transforms hround, transformOf_addKeyOf h, transformOf_addKeyOf (show 0 < 16 by decide)]
  rfl

end Sys2Proof.Machine
end

section
/-! SUPPORT. The known answer for a 16-byte key (95_test_vectors.md V1). -/

namespace Sys2Proof.Machine

/-- V1's block. -/
def knownPlain : Block :=
  #v[0x00, 0x11, 0x22, 0x33, 0x44, 0x55, 0x66, 0x77, 0x88, 0x99, 0xaa, 0xbb, 0xcc, 0xdd, 0xee, 0xff]

/-- V1's ciphertext. -/
def knownCipher : Block :=
  #v[0x69, 0xc4, 0xe0, 0xd8, 0x6a, 0x7b, 0x04, 0x30, 0xd8, 0xcd, 0xb7, 0x80, 0x70, 0xb4, 0xc5, 0x5a]

/-- V1's key, 00 to 0f. -/
def knownKey : List Byte := (List.range 16).map (BitVec.ofNat 8)

/-- The expansion of V1's key. -/
def knownRoundKeys : RoundKeys := layoutRoundKeys 4 (keyExpansion 4 knownKey)

theorem take_toList_eq_knownKey {key : KeyBytes} (h : ∀ k : Fin 16, key[k.val] = BitVec.ofNat 8 k.val) :
    key.toList.take 16 = knownKey := by
  apply List.ext_getElem
  · simp [knownKey]
  · intro k _ hk
    have hk : k < 16 := by simpa [knownKey] using hk
    simpa [knownKey] using h ⟨k, hk⟩

/-- Whatever KEY holds past its first 16 bytes. -/
theorem expandedKey_eq_of_knownKey {key : KeyBytes}
    (h : ∀ k : Fin 16, key[k.val] = BitVec.ofNat 8 k.val) :
    expandedKey 0x10 key = knownRoundKeys :=
  congrArg (fun k => layoutRoundKeys 4 (keyExpansion 4 k)) (take_toList_eq_knownKey h)

theorem cipher_knownPlain : cipher knownPlain 10 knownRoundKeys = knownCipher := by
  decide +kernel

theorem invCipher_knownCipher : invCipher knownCipher 10 knownRoundKeys = knownPlain := by
  rw [← cipher_knownPlain, invCipher_cipher]

/-- What EXPAND_KEY leaves under V1's KEYLEN and KEY. -/
theorem exec_expandKey_knownKey {s : State} (hlen : s.engine.keylen = 0x10)
    (hkey : ∀ k : Fin 16, s.engine.key[k.val] = BitVec.ofNat 8 k.val) :
    ∃ t : State, exec .expandKey s = .next t ∧ t.engine.keyValid = true ∧ t.engine.nr = 10 ∧
      t.engine.rk = knownRoundKeys ∧ t.engine.state = s.engine.state := by
  refine ⟨_, exec_expandKey_of_legal (by rw [hlen]; decide), rfl, ?_, ?_, rfl⟩
  · rw [State.withEngine_engine, Engine.ok_nr, Engine.installKey_nr, hlen]
    rfl
  · rw [State.withEngine_engine, Engine.ok_rk, Engine.installKey_rk, hlen,
      expandedKey_eq_of_knownKey hkey]

end Sys2Proof.Machine
end

section
/-! The statements of 40_block_cipher.md: NOP, ENCRYPT and DECRYPT, the cipher and its inverse, the known
answer, the command sequences, and the key the keyed commands use. -/

open Sys2Proof Sys2Proof.Machine

/-- Settles O35: each round is undone by its inverse round, the last done first. -/
theorem cipherAndInvCipherAreInverse : Obligations.CipherAndInvCipherAreInverse :=
  fun x nr rk _ => ⟨invCipher_cipher x nr rk, cipher_invCipher x nr rk⟩

/-- Settles O36: the sequence's transforms are ENCRYPT's rounds, and a transform leaves the key. -/
theorem encryptIsItsCommandSequence : Obligations.EncryptIsItsCommandSequence := by
  intro s nr hv hnr hn
  have hlt : nr < 16 := by omega
  have hnat : s.engine.nr.toNat = nr := hnr ▸ Nat.mod_eq_of_lt (by omega)
  have htrans := isTransform_of_mem_encryptSequence nr
  refine ⟨⟨s.withBlock (cipher s.engine.state nr s.engine.rk), ?_, ?_, rfl⟩,
    fun i hi => exec_transform_frame (htrans i hi)⟩
  · rw [← foldl_encryptSequence hlt]
    exact runInstrs_transforms (List.cons_ne_nil _ _) hv (hnat.symm ▸ htrans)
  · rw [exec_encrypt_of_valid hv, hnat]

/-- Settles O37: the sequence's transforms are DECRYPT's rounds. -/
theorem decryptIsItsCommandSequence : Obligations.DecryptIsItsCommandSequence := by
  intro s nr hv hnr hn
  have hlt : nr < 16 := by omega
  have hnat : s.engine.nr.toNat = nr := hnr ▸ Nat.mod_eq_of_lt (by omega)
  refine ⟨s.withBlock (invCipher s.engine.state nr s.engine.rk), ?_, ?_, rfl⟩
  · rw [← foldl_decryptSequence hlt]
    exact runInstrs_transforms (List.cons_ne_nil _ _) hv
      (hnat.symm ▸ isTransform_of_mem_decryptSequence nr)
  · rw [exec_decrypt_of_valid hv, hnat]

/-- Settles O34: the expansion reads the first 16 key bytes only, the ciphertext is the cipher run on V1's
block and key, and InvCipher undoes it. -/
theorem knownAnswerVector : Obligations.KnownAnswerVector := by
  intro s hlen hkey (hstate : s.engine.state = knownPlain)
  obtain ⟨t, hexpand, hvalid, hnr, hrk, hkept⟩ := exec_expandKey_knownKey hlen hkey
  have hencrypt : exec .encrypt t = .next (t.withBlock knownCipher) := by
    rw [exec_encrypt_of_valid hvalid, hkept, hstate, hnr, hrk, ← cipher_knownPlain]
    rfl
  have hdecrypt : exec .decrypt (t.withBlock knownCipher) = .next (t.withBlock knownPlain) := by
    rw [exec_decrypt_of_valid (s := t.withBlock knownCipher) hvalid, State.withBlock_nr,
      State.withBlock_rk, hnr, hrk, ← invCipher_knownCipher]
    rfl
  refine ⟨⟨t.withBlock knownCipher, ?_, rfl, State.withBlock_status hvalid _⟩,
    ⟨t.withBlock knownPlain, ?_, hstate.symm, State.withBlock_status hvalid _⟩⟩
  · rw [runInstrs_cons_of_next hexpand, runInstrs_cons_of_next hencrypt]
    rfl
  · rw [runInstrs_cons_of_next hexpand, runInstrs_cons_of_next hencrypt, runInstrs_cons_of_next hdecrypt]
    rfl

/-- Settles O38: under the invariant RK and NR are those of the current KEY and KEYLEN. -/
theorem keyedCommandsUseTheCurrentKey : Obligations.KeyedCommandsUseTheCurrentKey := by
  refine fun s hinv => ⟨fun hv => ?_, fun hv i hk => exec_keyed_of_invalid hk hv⟩
  obtain ⟨-, -, hrk⟩ := hinv.keyState hv
  have hnr := hinv.nr_toNat hv
  rw [← hrk, ← hnr]
  exact ⟨exec_encrypt_of_valid hv, exec_decrypt_of_valid hv, fun r hr => execAddRoundKey_of_le hv hr⟩

/-- Settles O32: NOP finishes with the engine as it is; STATUS 0x0B is a valid key with ERR 3. -/
theorem nopClearsErrOnly : Obligations.NopClearsErrOnly := by
  refine ⟨rfl, fun s => rfl, fun arg s ha =>
    exec_illegalWrite (decodeCommand_commandByte_illegal ha (by decide)) s, fun s hs => ?_⟩
  obtain ⟨hv, -⟩ : s.engine.keyValid = true ∧ s.engine.err = 3 := statusByte_inj hs
  refine ⟨_, exec_cmdWrite_eq 0x00 s, ?_⟩
  show statusByte s.engine.keyValid 0 = 0x08
  rw [hv]
  rfl

/-- Settles O33: the key check decides, and a nonzero ARG makes the byte illegal. -/
theorem encryptAndDecryptTransformState : Obligations.EncryptAndDecryptTransformState := by
  refine ⟨rfl, rfl, fun s hv => ⟨exec_encrypt_of_valid hv, exec_decrypt_of_valid hv⟩,
    fun s hv => ⟨exec_keyed_of_invalid rfl hv, exec_keyed_of_invalid rfl hv⟩, fun arg op s ha ho => ?_⟩
  have hop : op ≠ 0xA := by
    rintro rfl
    exact absurd ho (by decide)
  exact exec_illegalWrite (decodeCommand_commandByte_illegal ha hop) s

end

section
/-! SUPPORT. The key schedule word by word: the expansion grows by one word at a time and keeps the words
it has, so a word is given by the two earlier ones it is made from (41_key_schedule.md rules R121, R123). -/

namespace Sys2Proof.Machine

/-! ### Round constants -/

theorem rcon_succ {j : Nat} (h : 1 ≤ j) : rcon (j + 1) = xtime (rcon j) := by
  cases j with
  | zero => exact absurd h (by decide)
  | succ j => rfl

theorem xor_rconWord (j : Nat) (w : Word) :
    w.xor (rconWord j) = ⟨w.a0 ^^^ rcon j, w.a1, w.a2, w.a3⟩ := by
  simp [Word.xor, rconWord]

/-- The three cases of R123's `t`, byte by byte. -/
theorem scheduleTemp_eq (nk i : Nat) (p : Word) :
    scheduleTemp nk i p =
      if i % nk = 0 then ⟨sbox p.a1 ^^^ rcon (i / nk), sbox p.a2, sbox p.a3, sbox p.a0⟩
      else if nk = 8 ∧ i % nk = 4 then ⟨sbox p.a0, sbox p.a1, sbox p.a2, sbox p.a3⟩
      else p := by
  rw [scheduleTemp, xor_rconWord]
  rfl

theorem nextWord_of_some {nk i : Nat} {w : List Word} {p q : Word} (hp : w[i - 1]? = some p)
    (hq : w[i - nk]? = some q) : nextWord nk w i = q.xor (scheduleTemp nk i p) := by
  simp [nextWord, List.getD_eq_getElem?_getD, hp, hq]

/-! ### The schedule as it grows -/

/-- The raw key's `nk` words and `n` computed ones; the whole expansion for one `n` (`keyExpansion_eq`). -/
def schedulePrefix (nk : Nat) (k : List Byte) (n : Nat) : List Word :=
  (List.range' nk n).foldl (fun w i => w ++ [nextWord nk w i]) ((List.range nk).map (keyWord k))

theorem keyExpansion_eq (nk : Nat) (k : List Byte) :
    keyExpansion nk k = schedulePrefix nk k (4 * (nk + 7) - nk) := rfl

theorem schedulePrefix_succ (nk : Nat) (k : List Byte) (n : Nat) :
    schedulePrefix nk k (n + 1) =
      schedulePrefix nk k n ++ [nextWord nk (schedulePrefix nk k n) (nk + n)] := by
  rw [schedulePrefix, List.range'_1_concat, List.foldl_concat]
  rfl

theorem length_schedulePrefix (nk : Nat) (k : List Byte) (n : Nat) :
    (schedulePrefix nk k n).length = nk + n := by
  induction n with
  | zero => simp [schedulePrefix]
  | succ n ih => rw [schedulePrefix_succ, List.length_append, ih]; rfl

/-- A word once computed stays. -/
theorem getElem?_schedulePrefix_of_le {nk m n i : Nat} (k : List Byte) (h : m ≤ n) (hi : i < nk + m) :
    (schedulePrefix nk k n)[i]? = (schedulePrefix nk k m)[i]? := by
  induction n, h using Nat.le_induction with
  | base => rfl
  | succ n hmn ih =>
    rw [schedulePrefix_succ, List.getElem?_append_left (by rw [length_schedulePrefix]; omega), ih]

theorem getElem?_schedulePrefix_last (nk : Nat) (k : List Byte) (n : Nat) :
    (schedulePrefix nk k (n + 1))[nk + n]? = some (nextWord nk (schedulePrefix nk k n) (nk + n)) := by
  conv_lhs => rw [schedulePrefix_succ, ← length_schedulePrefix nk k n]
  rw [List.getElem?_concat_length, length_schedulePrefix]

/-! ### The whole expansion -/

theorem length_keyExpansion (nk : Nat) (k : List Byte) : (keyExpansion nk k).length = 4 * (nk + 7) := by
  rw [keyExpansion_eq, length_schedulePrefix]
  omega

/-- The first words are the raw key's. -/
theorem getElem?_keyExpansion_of_lt {nk i : Nat} (k : List Byte) (h : i < nk) :
    (keyExpansion nk k)[i]? = some (keyWord k i) := by
  rw [keyExpansion_eq, getElem?_schedulePrefix_of_le k (Nat.zero_le _) h]
  simp [schedulePrefix, h]

/-- Every later word is made from the word before it and the one `nk` before it. -/
theorem getElem?_keyExpansion_of_le {nk i : Nat} {k : List Byte} {p q : Word} (hnk : 0 < nk) (h : nk ≤ i)
    (hi : i < 4 * (nk + 7)) (hp : (keyExpansion nk k)[i - 1]? = some p)
    (hq : (keyExpansion nk k)[i - nk]? = some q) :
    (keyExpansion nk k)[i]? = some (q.xor (scheduleTemp nk i p)) := by
  obtain ⟨n, rfl⟩ := Nat.exists_eq_add_of_le h
  have hn : n + 1 ≤ 4 * (nk + 7) - nk := by omega
  rw [keyExpansion_eq, getElem?_schedulePrefix_of_le k (Nat.le_of_succ_le hn) (by omega)] at hp hq
  rw [keyExpansion_eq, getElem?_schedulePrefix_of_le k hn (by omega), getElem?_schedulePrefix_last,
    nextWord_of_some hp hq]

end Sys2Proof.Machine
end

section
/-! SUPPORT. What EXPAND_KEY leaves: RK byte by byte, and the registers it neither reads nor writes
(41_key_schedule.md rules R122, R124, R127). -/

namespace Sys2Proof.Machine

/-! ### RK byte by byte -/

theorem byte_eq_getD_bytes (w : Word) {r : Nat} (h : r < 4) : w.byte r = w.bytes.getD r 0 := by
  interval_cases r <;> rfl

theorem byte_keyWord (k : List Byte) (i : Nat) {r : Nat} (h : r < 4) :
    (keyWord k i).byte r = k.getD (4 * i + r) 0 := by
  interval_cases r <;> rfl

theorem getElem_layoutRoundKeys {nk : Nat} {w : List Word} {j : Fin 240} {x : Word}
    (hj : j.val < 16 * (nk + 7)) (hx : w[j.val / 4]? = some x) :
    (layoutRoundKeys nk w)[j] = x.byte (j.val % 4) := by
  simp [layoutRoundKeys, hj, List.getD_eq_getElem?_getD, hx]

theorem toNat_keylen_of_legal {keylen : Byte} (h : legalKeyLength keylen = true) :
    keylen.toNat = 4 * nkOf keylen := by
  rcases (legalKeyLength_iff keylen).1 h with rfl | rfl | rfl <;> rfl

/-- The key is the start of its own expansion. -/
theorem getElem_expandedKey_of_lt {keylen : Byte} (h : legalKeyLength keylen = true) (key : KeyBytes)
    {j : Nat} (hj : j < 32) (hlt : j < keylen.toNat) : (expandedKey keylen key)[j] = key[j] := by
  have hword : j / 4 < nkOf keylen := by
    have := toNat_keylen_of_legal h
    omega
  have hbyte := getElem_layoutRoundKeys (nk := nkOf keylen) (j := ⟨j, by omega⟩) (by show j < _; omega)
    (getElem?_keyExpansion_of_lt (key.toList.take keylen.toNat) hword)
  calc (expandedKey keylen key)[j]
      = (keyWord (key.toList.take keylen.toNat) (j / 4)).byte (j % 4) := hbyte
    _ = (key.toList.take keylen.toNat).getD j 0 := by
      rw [byte_keyWord _ _ (Nat.mod_lt j (by decide)), Nat.div_add_mod]
    _ = key[j] := by simp [List.getD_eq_getElem?_getD, hlt, hj]

/-! ### The command -/

/-- EXPAND_KEY with an illegal KEYLEN (R122). -/
theorem exec_expandKey_of_illegal {s : State} (h : legalKeyLength s.engine.keylen = false) :
    exec .expandKey s = .next (s.withEngine (s.engine.clearKeyValid.raise .keyLength)) := by
  rw [exec_command_eq rfl, commandEffect_expandKey_of_illegal h]

/-- EXPAND_KEY neither reads nor writes STATE, GFA, GFB and GFR. -/
theorem commandEffect_expandKey_with (e : Engine) (b : Block) (x y z : Byte) :
    commandEffect .expandKey { e with state := b, gfa := x, gfb := y, gfr := z } =
      { commandEffect .expandKey e with state := b, gfa := x, gfb := y, gfr := z } := by
  cases h : legalKeyLength e.keylen with
  | true => rw [commandEffect_expandKey_of_legal h]; exact commandEffect_expandKey_of_legal h
  | false => rw [commandEffect_expandKey_of_illegal h]; exact commandEffect_expandKey_of_illegal h

end Sys2Proof.Machine
end

section
/-! The statements of 41_key_schedule.md: the schedule's recurrence, the round constants, EXPAND_KEY's
results, and what it does not depend on. -/

open Sys2Proof Sys2Proof.Machine

/-- Settles O40: the words below Nk are the raw key's, and each later one is appended from the words
before it, which stay. -/
theorem keyExpansionFollowsTheRecurrence : Obligations.KeyExpansionFollowsTheRecurrence := by
  intro nk k hnk _
  refine ⟨length_keyExpansion nk k, fun i hi => getElem?_keyExpansion_of_lt k hi,
    fun i p q h hi hp hq => ?_⟩
  rw [← scheduleTemp_eq]
  exact getElem?_keyExpansion_of_le (by omega) h hi hp hq

/-- Settles O41: with a legal KEYLEN the RK left is the layout of the expansion, whose first bytes are the
key's; an illegal KEYLEN drops the key, and a nonzero ARG makes the byte illegal. -/
theorem expandKeyDerivesTheRoundKeys : Obligations.ExpandKeyDerivesTheRoundKeys := by
  refine ⟨rfl, fun s hs => ?_, fun s h16 h24 h32 => ?_,
    fun arg s ha => exec_illegalWrite (decodeCommand_commandByte_illegal ha (by decide)) s⟩
  · have hlegal := (legalKeyLength_iff _).2 hs
    refine ⟨expandedKey s.engine.keylen s.engine.key, exec_expandKey_of_legal hlegal,
      fun j w hj hw => ?_, fun j hj => layoutRoundKeys_tail _ _ j hj, fun k => ?_⟩
    · exact (getElem_layoutRoundKeys hj hw).trans (byte_eq_getD_bytes w (Nat.mod_lt _ (by decide)))
    · have h16 : 16 ≤ s.engine.keylen.toNat := by rcases hs with hs | hs | hs <;> rw [hs] <;> decide
      exact getElem_expandedKey_of_lt hlegal _ (by omega) (by omega)
  · refine exec_expandKey_of_illegal (Bool.eq_false_iff.2 fun hl => ?_)
    rcases (legalKeyLength_iff _).1 hl with h | h | h
    exacts [h16 h, h24 h, h32 h]

/-- Settles O43: the effect commutes with replacing the four registers, and so keeps them; a failure
clears KEY_VALID, which the keyed commands check first. -/
theorem expandKeyIsIndependentOfState : Obligations.ExpandKeyIsIndependentOfState := by
  refine ⟨fun s b x y z => ?_, fun s h => ?_⟩
  · have hkept := commandEffect_expandKey_with s.engine s.engine.state s.engine.gfa s.engine.gfb
      s.engine.gfr
    refine ⟨_, exec_command_eq rfl s, ?_, (congrArg Engine.state hkept :),
      (congrArg Engine.gfa hkept :), (congrArg Engine.gfb hkept :), (congrArg Engine.gfr hkept :)⟩
    rw [exec_command_eq rfl, commandEffect_expandKey_with]
    rfl
  · exact ⟨_, exec_expandKey_of_illegal h, rfl, fun i hk => exec_keyed_of_invalid hk rfl⟩

/-- Settles O39: R121's recurrence, and Nk 4, 6, 8 with their last word index. -/
theorem roundConstants : Obligations.RoundConstants := by
  refine ⟨rfl, fun j hj => rcon_succ hj, by decide, xor_rconWord, fun nk i hnk h hi => ?_⟩
  rcases hnk with rfl | rfl | rfl <;> omega

end

section
/-! SUPPORT. The S-box as the table R141 constructs, and the byte moves and column products of ShiftRows
and MixColumns (42_round_transforms.md rules R140, R141, R143, R146). -/

namespace Sys2Proof.Machine

/-! ### The S-box -/

theorem sbox_bijective : Function.Bijective sbox :=
  Function.bijective_iff_has_inverse.2 ⟨invSbox, invSbox_sbox, sbox_invSbox⟩

/-- The inverse of R141's affine map; it takes Sbox(v) to the inverse of `v` (`gmul_invSboxAffine_sbox`). -/
def invSboxAffine (b : Byte) : Byte := rotl8 b 1 ^^^ rotl8 b 3 ^^^ rotl8 b 6 ^^^ 0x05

theorem sboxAffine_invSboxAffine (b : Byte) : sboxAffine (invSboxAffine b) = b := by
  revert b; decide +kernel

theorem gmul_invSboxAffine_sbox {v : Byte} (h : v ≠ 0) : gmul (invSboxAffine (sbox v)) v = 0x01 := by
  revert v; decide +kernel

theorem gmul_one_right (a : Byte) : gmul a 0x01#8 = a := by revert a; decide +kernel

/-- A right inverse is the left inverse the S-box names. -/
theorem eq_invSboxAffine_sbox {v u : Byte} (h : gmul v u = 0x01) : u = invSboxAffine (sbox v) := by
  have hv : v ≠ 0 := by
    rintro rfl
    exact absurd ((gmul_zero_left u).symm.trans h) (by decide)
  calc u = gmul 0x01 u := (gmul_one_left u).symm
    _ = gmul (invSboxAffine (sbox v)) (gmul v u) := by rw [← gmul_assoc, gmul_invSboxAffine_sbox hv]
    _ = invSboxAffine (sbox v) := by rw [h]; exact gmul_one_right _

/-! ### Byte moves -/

/-- Byte `4c + r` of a block. -/
def cell (r c : Fin 4) : Fin 16 := ⟨4 * c.val + r.val, by omega⟩

theorem shiftSource_cell (r c : Fin 4) : shiftSource (cell r c) = cell r (c + r) := by
  revert r c; decide

theorem getElem_shiftRows_cell (b : Block) (r c : Fin 4) :
    (shiftRows b)[cell r c] = b[cell r (c + r)] := by
  simp only [getElem_shiftRows, shiftSource_cell]

theorem getElem_invShiftRows_cell (b : Block) (r c : Fin 4) :
    (invShiftRows b)[cell r (c + r)] = b[cell r c] := by
  rw [← getElem_shiftRows_cell, shiftRows_invShiftRows]

/-- R143's index table. -/
theorem shiftRows_eq (b : Block) : shiftRows b = #v[b[0], b[5], b[10], b[15], b[4], b[9], b[14], b[3],
    b[8], b[13], b[2], b[7], b[12], b[1], b[6], b[11]] :=
  block_ext fun k => by
    rw [getElem_shiftRows]
    fin_cases k <;> rfl

/-- R162's index table. -/
theorem invShiftRows_eq (b : Block) : invShiftRows b = #v[b[0], b[13], b[10], b[7], b[4], b[1], b[14],
    b[11], b[8], b[5], b[2], b[15], b[12], b[9], b[6], b[3]] :=
  block_ext fun k => by
    rw [getElem_invShiftRows]
    fin_cases k <;> rfl

theorem shiftSource_iterate_three (k : Fin 16) :
    shiftSource (shiftSource (shiftSource k)) = invShiftSource k := by
  revert k; decide

theorem shiftRows_iterate_three (b : Block) : shiftRows (shiftRows (shiftRows b)) = invShiftRows b :=
  block_ext fun k => by simp only [getElem_shiftRows, getElem_invShiftRows, shiftSource_iterate_three]

theorem shiftSource_mod_four (k : Fin 16) : (shiftSource k).val % 4 = k.val % 4 := by
  revert k; decide

/-- A byte stays in its row, so equal columns stay. -/
theorem shiftRows_ofColumns_const (w : Word) :
    shiftRows (ofColumns fun _ => w) = ofColumns fun _ => w :=
  block_ext fun k => by
    rw [getElem_shiftRows, getElem_ofColumns, getElem_ofColumns, shiftSource_mod_four]

theorem invShiftRows_ofColumns_const (w : Word) :
    invShiftRows (ofColumns fun _ => w) = ofColumns fun _ => w := by
  conv_lhs => rw [← shiftRows_ofColumns_const w, invShiftRows_shiftRows]

/-! ### Column products -/

theorem gmul_two_left (v : Byte) : gmul 0x02 v = xtime v := by
  calc gmul 0x02 v = xtime (gmul 0x01 v) := gmul_xtime_left 0x01 v
    _ = xtime v := congrArg xtime (gmul_one_left v)

theorem gmul_three_left (v : Byte) : gmul 0x03 v = xtime v ^^^ v := by
  calc gmul 0x03 v = gmul 0x02 v ^^^ gmul 0x01 v := gmul_xor_left 0x02 0x01 v
    _ = xtime v ^^^ v := congrArg₂ _ (gmul_two_left v) (gmul_one_left v)

/-- M's rows written out (R146). -/
theorem mixMatrix_timesColumn (s : Word) : matrixTimesColumn mixMatrix s =
    ⟨gmul 0x02 s.a0 ^^^ gmul 0x03 s.a1 ^^^ s.a2 ^^^ s.a3,
     s.a0 ^^^ gmul 0x02 s.a1 ^^^ gmul 0x03 s.a2 ^^^ s.a3,
     s.a0 ^^^ s.a1 ^^^ gmul 0x02 s.a2 ^^^ gmul 0x03 s.a3,
     gmul 0x03 s.a0 ^^^ s.a1 ^^^ s.a2 ^^^ gmul 0x02 s.a3⟩ := by
  simp [matrixTimesColumn, rowTimesColumn, mixMatrix]

theorem column_mixColumns (b : Block) (c : Fin 4) :
    column (mixColumns b) c = matrixTimesColumn mixMatrix (column b c) :=
  column_ofColumns _ c

/-- A row times four equal bytes is the sum of the row times the byte. -/
theorem rowTimesColumn_const (w : Word) (v : Byte) :
    rowTimesColumn w ⟨v, v, v, v⟩ = gmul (w.a0 ^^^ w.a1 ^^^ w.a2 ^^^ w.a3) v := by
  simp only [rowTimesColumn, gmul_xor_left]

/-- Each row of M sums to 1. -/
theorem mixMatrix_timesColumn_const (v : Byte) :
    matrixTimesColumn mixMatrix ⟨v, v, v, v⟩ = ⟨v, v, v, v⟩ := by
  simp [matrixTimesColumn, rowTimesColumn_const, mixMatrix]

/-- Each row of M' sums to 1. -/
theorem invMixMatrix_timesColumn_const (v : Byte) :
    matrixTimesColumn invMixMatrix ⟨v, v, v, v⟩ = ⟨v, v, v, v⟩ := by
  simp [matrixTimesColumn, rowTimesColumn_const, invMixMatrix]

end Sys2Proof.Machine
end

section
/-! SUPPORT. The transform commands that need no key: one after another they transform STATE from every
state; and a command byte with a nonzero ARG is ILLEGAL_CMD (42_round_transforms.md rules R142, R144,
R147; 30_encoding.md rule R73). -/

namespace Sys2Proof.Machine

/-- A transform that is not keyed succeeds from every state. -/
theorem exec_unkeyedTransform {nr : Nat} {i : Instr} (hi : isTransform nr i = true)
    (hk : isKeyed i = false) (s : State) :
    exec i s = .next (s.withBlock (transformOf s.engine.rk s.engine.state i)) := by
  cases i with
  | subBytes | invSubBytes | shiftRows | invShiftRows | mixColumns | invMixColumns => rfl
  | addRoundKey r => cases hk
  | _ => cases hi

/-- Such transforms one after another, at least one. -/
theorem runInstrs_unkeyedTransforms {nr : Nat} {is : List Instr} (hne : is ≠ [])
    (hi : ∀ i ∈ is, isTransform nr i = true ∧ isKeyed i = false) (s : State) :
    runInstrs is s = .next (s.withBlock (is.foldl (transformOf s.engine.rk) s.engine.state)) := by
  induction is generalizing s with
  | nil => exact absurd rfl hne
  | cons i is ih =>
    obtain ⟨⟨hhead, hk⟩, htail⟩ := List.forall_mem_cons.1 hi
    rw [runInstrs_cons_of_next (exec_unkeyedTransform hhead hk s)]
    cases is with
    | nil => rfl
    | cons j js => exact ih (List.cons_ne_nil j js) htail _

/-- Unkeyed transforms that together leave every block only clear ERR. -/
theorem runInstrs_unkeyedTransforms_of_id {s : State} {is : List Instr} (hne : is ≠ [])
    (hi : ∀ i ∈ is, isTransform 0 i = true ∧ isKeyed i = false)
    (hid : ∀ rk b, is.foldl (transformOf rk) b = b) :
    runInstrs is s = .next { s with engine := { s.engine with err := 0 } } := by
  rw [runInstrs_unkeyedTransforms hne hi, hid]
  rfl

/-- The CMD write of any command byte but ADD_ROUND_KEY's with a nonzero ARG. -/
theorem exec_cmdWrite_of_arg_ne_zero {arg op : BitVec 4} (ha : arg ≠ 0) (ho : op ≠ 0xA) (s : State) :
    exec (.hostWrite 0x000 (commandByte arg op)) s =
      .next { s with engine := { s.engine with cmd := commandByte arg op, err := 4 } } :=
  exec_illegalWrite (decodeCommand_commandByte_illegal ha ho) s

end Sys2Proof.Machine
end

section
/-! The statements of 42_round_transforms.md: the S-box, ShiftRows, MixColumns and AddRoundKey as functions
on a block, and their commands. -/

open Sys2Proof Sys2Proof.Machine

/-- Settles O54: KEY_VALID and then the round decide, and the XOR with one round key undoes itself. -/
theorem addRoundKeyCommand : Obligations.AddRoundKeyCommand := by
  refine ⟨decodeCommand_addRoundKey, fun r s hv hr => ⟨execAddRoundKey_of_le hv hr, ?_⟩,
    fun r s hv hr => execAddRoundKey_of_lt hv hr, fun r s hv => exec_keyed_of_invalid rfl hv⟩
  have hi : isTransform s.engine.nr.toNat (.addRoundKey r) = true := decide_eq_true hr
  have hid : [.addRoundKey r, .addRoundKey r].foldl (transformOf s.engine.rk) s.engine.state =
      s.engine.state := addRoundKey_addRoundKey _ _ _
  rw [runInstrs_transforms (List.cons_ne_nil _ _) hv (by simp [hi]), hid]
  rfl

/-- Settles O45: an inverse of v is what the affine map's inverse takes Sbox(v) to. -/
theorem sboxIsTheAffineImageOfTheInverse : Obligations.SboxIsTheAffineImageOfTheInverse :=
  ⟨by decide, by decide, fun v u h => by rw [eq_invSboxAffine_sbox h, sboxAffine_invSboxAffine]⟩

/-- Settles O47: the commands answer the transformed STATE, and InvSbox undoes Sbox byte by byte. -/
theorem subBytesCommands : Obligations.SubBytesCommands :=
  ⟨rfl, rfl, fun s => ⟨subBytes s.engine.state, invSubBytes s.engine.state, rfl, rfl,
      fun k => ⟨getElem_subBytes _ k, getElem_invSubBytes _ k⟩⟩,
    fun arg op s ha ho => exec_cmdWrite_of_arg_ne_zero ha (by rcases ho with rfl | rfl <;> decide) s,
    by decide, by decide, by decide, by decide, by decide,
    fun s => runInstrs_unkeyedTransforms_of_id (List.cons_ne_nil _ _) (by decide)
      fun _ => invSubBytes_subBytes⟩

/-- Settles O48: row r goes left by r, and InvShiftRows, its inverse, moves it back. -/
theorem shiftRowsMovesRowsLeft : Obligations.ShiftRowsMovesRowsLeft :=
  ⟨fun b r c => ⟨getElem_shiftRows_cell b r c, getElem_invShiftRows_cell b r c⟩, shiftRows_eq,
    invShiftRows_eq, fun b => ⟨invShiftRows_shiftRows b, shiftRows_invShiftRows b⟩,
    by decide, by decide⟩

/-- Settles O49: three left rotations are one right rotation, which the fourth undoes. -/
theorem shiftRowsCommands : Obligations.ShiftRowsCommands := by
  have hfour (b : Block) : shiftRows (shiftRows (shiftRows (shiftRows b))) = b := by
    rw [shiftRows_iterate_three, invShiftRows_shiftRows]
  have hthree (s : State) : runInstrs [.shiftRows, .shiftRows, .shiftRows] s = exec .invShiftRows s := by
    rw [runInstrs_unkeyedTransforms (nr := 0) (List.cons_ne_nil _ _) (by decide)]
    exact congrArg (fun b => Host.Outcome.next (s.withBlock b)) (shiftRows_iterate_three s.engine.state)
  exact ⟨rfl, rfl, fun s => ⟨rfl, rfl,
      runInstrs_unkeyedTransforms_of_id (List.cons_ne_nil _ _) (by decide) fun _ => hfour,
      runInstrs_unkeyedTransforms_of_id (List.cons_ne_nil _ _) (by decide)
        fun _ => invShiftRows_shiftRows, hthree s⟩,
    fun arg op s ha ho => exec_cmdWrite_of_arg_ne_zero ha (by rcases ho with rfl | rfl <;> decide) s,
    shiftRows_ofColumns_const, invShiftRows_ofColumns_const, by decide, by decide⟩

/-- Settles O52: M' undoes M, and the rows of both sum to 1. -/
theorem mixColumnsCommands : Obligations.MixColumnsCommands :=
  ⟨rfl, rfl, fun s => ⟨rfl, rfl, runInstrs_unkeyedTransforms_of_id (List.cons_ne_nil _ _) (by decide)
      fun _ => invMixColumns_mixColumns⟩,
    fun arg op s ha ho => exec_cmdWrite_of_arg_ne_zero ha (by rcases ho with rfl | rfl <;> decide) s,
    fun v => ⟨mixMatrix_timesColumn_const v, invMixMatrix_timesColumn_const v⟩,
    by decide, by decide, by decide, by decide, by decide⟩

/-- Settles O44: each lane goes through Sbox, which InvSbox undoes on both sides. -/
theorem subBytesIsABytewiseBijection : Obligations.SubBytesIsABytewiseBijection :=
  ⟨getElem_subBytes, sbox_bijective, fun v => ⟨invSbox_sbox v, sbox_invSbox v⟩⟩

/-- Settles O46: Sbox has an inverse, and its 256 entries are compared with their index. -/
theorem sboxHasNoFixedPoint : Obligations.SboxHasNoFixedPoint :=
  ⟨sbox_bijective, by decide +kernel, by decide +kernel⟩

/-- Settles O50: a column of the result is M times the column, and 0x02 is x. -/
theorem mixColumnsMultipliesColumnsByM : Obligations.MixColumnsMultipliesColumnsByM :=
  ⟨fun b c => Word.mk.inj ((column_mixColumns b c).trans (mixMatrix_timesColumn _)),
    fun v => ⟨gmul_two_left v, gmul_three_left v⟩⟩

/-- Settles O53: a round key up to 14 lies in RK. -/
theorem addRoundKeyIsItsOwnInverse : Obligations.AddRoundKeyIsItsOwnInverse := by
  refine fun b rk r => ⟨fun k => ?_, addRoundKey_addRoundKey b rk r.val⟩
  rw [getElem_addRoundKey, roundKeyByte_of_lt]

end

section
/-! SUPPORT. InvMixColumns column by column, the commutation of bytewise maps with byte moves, and the
commands that undo each other (43_inverse_transforms.md rules R165, R167, R168). -/

namespace Sys2Proof.Machine

theorem column_invMixColumns (b : Block) (c : Fin 4) :
    column (invMixColumns b) c = matrixTimesColumn invMixMatrix (column b c) :=
  column_ofColumns _ c

/-- On both sides byte `k` is the S-box entry of the byte ShiftRows moves to `k`. -/
theorem subBytes_shiftRows (b : Block) : subBytes (shiftRows b) = shiftRows (subBytes b) :=
  block_ext fun k => by simp only [getElem_subBytes, getElem_shiftRows]

theorem invSubBytes_invShiftRows (b : Block) :
    invSubBytes (invShiftRows b) = invShiftRows (invSubBytes b) :=
  block_ext fun k => by simp only [getElem_invSubBytes, getElem_invShiftRows]

/-- The block with byte 0 one and the rest zero. ShiftRows keeps it; after MixColumns has spread
byte 0 over column 0, ShiftRows moves three of its bytes to other columns. -/
def firstByteBlock : Block := #v[1, 0, 0, 0, 0, 0, 0, 0, 0, 0, 0, 0, 0, 0, 0, 0]

theorem mixColumns_shiftRows_firstByteBlock_ne :
    mixColumns (shiftRows firstByteBlock) ≠ shiftRows (mixColumns firstByteBlock) := by
  decide

/-- The command pairs of R167, in either order. -/
def inversePairs : List (Instr × Instr) :=
  [(.subBytes, .invSubBytes), (.invSubBytes, .subBytes), (.shiftRows, .invShiftRows),
   (.invShiftRows, .shiftRows), (.mixColumns, .invMixColumns), (.invMixColumns, .mixColumns)]

theorem isTransform_of_mem_inversePairs :
    ∀ p ∈ inversePairs, ∀ i ∈ [p.1, p.2], isTransform 0 i = true ∧ isKeyed i = false := by
  decide

theorem foldl_inversePairs (rk : RoundKeys) (b : Block) :
    ∀ p ∈ inversePairs, [p.1, p.2].foldl (transformOf rk) b = b := by
  intro p hp
  fin_cases hp
  exacts [invSubBytes_subBytes b, subBytes_invSubBytes b, invShiftRows_shiftRows b,
    shiftRows_invShiftRows b, invMixColumns_mixColumns b, mixColumns_invMixColumns b]

end Sys2Proof.Machine
end

section
/-! The statements of 43_inverse_transforms.md: InvMixColumns as a function on a block, and the laws of the
inverse transforms. -/

open Sys2Proof Sys2Proof.Machine

/-- Settles O51: a column of the result is M' times the column, and M' M is the unit matrix. -/
theorem invMixColumnsUndoesMixColumns : Obligations.InvMixColumnsUndoesMixColumns :=
  ⟨fun b c => Word.mk.inj (column_invMixColumns b c), invMixColumns_mixColumns, by decide⟩

/-- Settles O55: unkeyed transforms that cancel on every block only clear ERR. -/
theorem inversePairsCancel : Obligations.InversePairsCancel :=
  ⟨fun b => ⟨invSubBytes_subBytes b, subBytes_invSubBytes b, invShiftRows_shiftRows b,
      shiftRows_invShiftRows b, invMixColumns_mixColumns b, mixColumns_invMixColumns b⟩,
    fun _ p hp => runInstrs_unkeyedTransforms_of_id (List.cons_ne_nil _ _)
      (isTransform_of_mem_inversePairs p hp) fun rk b => foldl_inversePairs rk b p hp⟩

/-- Settles O56: bytewise maps commute with byte moves, so the two commands answer the same STATE in
either order; MixColumns is not bytewise. -/
theorem byteSubstitutionCommutesWithRowShifts : Obligations.ByteSubstitutionCommutesWithRowShifts :=
  ⟨fun b => ⟨subBytes_shiftRows b, invSubBytes_invShiftRows b⟩,
    fun s => ⟨s.withBlock (invSubBytes (invShiftRows s.engine.state)), rfl,
      congrArg (fun b => Host.Outcome.next (s.withBlock b)) (invSubBytes_invShiftRows s.engine.state).symm⟩,
    firstByteBlock, mixColumns_shiftRows_firstByteBlock_ne⟩

end

section
/-! SUPPORT. gmul is the product of polynomials reduced modulo 0x11B, commutes and has inverses; what it
is at small constants (44_gf_multiply.md rules R181, R182, R184). -/

namespace Sys2Proof.Machine

/-! ### Reduction is linear, and takes multiplication by x to `xtime` -/

theorem reducePoly_succ_of_coeff {n : Nat} {p : BitVec 15} (h : p.getLsbD (n + 8) = true) :
    reducePoly (n + 1) p = reducePoly n (p ^^^ 0x11B#15 <<< n) := by
  rw [reducePoly, if_pos h]

theorem reducePoly_succ_of_no_coeff {n : Nat} {p : BitVec 15} (h : p.getLsbD (n + 8) = false) :
    reducePoly (n + 1) p = reducePoly n p := by
  rw [reducePoly, if_neg (ne_true_of_eq_false h)]

/-- At each step the multiples of the modulus cancel when both polynomials have the coefficient. -/
theorem reducePoly_xor (n : Nat) (p q : BitVec 15) :
    reducePoly n (p ^^^ q) = reducePoly n p ^^^ reducePoly n q := by
  induction n generalizing p q with
  | zero => rfl
  | succ n ih =>
    simp only [reducePoly, ← ih, BitVec.getLsbD_xor]
    congr 1
    cases p.getLsbD (n + 8) <;> cases q.getLsbD (n + 8) <;> grind

/-- No step of the reduction reaches the coefficients of a byte. -/
theorem reducePoly_setWidth (n : Nat) (a : Byte) : reducePoly n (a.setWidth 15) = a.setWidth 15 := by
  induction n with
  | zero => rfl
  | succ n ih => rw [reducePoly_succ_of_no_coeff (by simp), ih]

/-- The last step of the reduction, on a polynomial multiplied by x, is `xtime`'s (R180). -/
theorem setWidth_reducePoly_one_shiftLeft (p : BitVec 15) :
    (reducePoly 1 (p <<< 1)).setWidth 8 = xtime (p.setWidth 8) := by
  have htop : (p <<< 1).getLsbD 8 = (p.setWidth 8).getLsbD 7 := by simp
  have hshift : (p <<< 1).setWidth 8 = p.setWidth 8 <<< 1 := by
    ext i hi
    simp
  simp only [reducePoly, htop, xtime, Nat.zero_add]
  split
  · rw [BitVec.setWidth_xor, hshift]
    rfl
  · exact hshift

/-- Every earlier step commutes with the multiplication by x. -/
theorem reducePoly_succ_shiftLeft {n : Nat} (h : n ≤ 6) (p : BitVec 15) :
    reducePoly (n + 1) (p <<< 1) = reducePoly 1 (reducePoly n p <<< 1) := by
  induction n generalizing p with
  | zero => rfl
  | succ n ih =>
    have htop : (p <<< 1).getLsbD (n + 1 + 8) = p.getLsbD (n + 8) := by
      simp [BitVec.getLsbD_eq_getElem (show n + 8 < 15 by omega), show n + 1 + 8 < 15 by omega]
    cases hp : p.getLsbD (n + 8) with
    | true =>
      rw [reducePoly_succ_of_coeff (htop.trans hp), reducePoly_succ_of_coeff hp, ← ih (by omega),
        BitVec.shiftLeft_xor_distrib, BitVec.shiftLeft_add]
    | false =>
      rw [reducePoly_succ_of_no_coeff (htop.trans hp), reducePoly_succ_of_no_coeff hp, ih (by omega)]

/-- Without a coefficient of degree 14, multiplication by x before the reduction is `xtime` after it. -/
theorem setWidth_reducePoly_shiftLeft {p : BitVec 15} (h : p.getLsbD 14 = false) :
    (reducePoly 7 (p <<< 1)).setWidth 8 = xtime ((reducePoly 7 p).setWidth 8) := by
  rw [reducePoly_succ_shiftLeft le_rfl, setWidth_reducePoly_one_shiftLeft, reducePoly_succ_of_no_coeff h]

/-- The multiple of `a` by the `n`-th power of x. -/
theorem setWidth_reducePoly_setWidth_shiftLeft {n : Nat} (h : n ≤ 7) (a : Byte) :
    (reducePoly 7 (a.setWidth 15 <<< n)).setWidth 8 = xtime^[n] a := by
  induction n with
  | zero => simp [reducePoly_setWidth]
  | succ n ih =>
    have htop : (a.setWidth 15 <<< n).getLsbD 14 = false := by
      simp [show 8 ≤ 14 - n by omega]
    rw [BitVec.shiftLeft_add, setWidth_reducePoly_shiftLeft htop, ih (by omega),
      Function.iterate_succ_apply']

/-! ### The two orders of R181 -/

/-- The loop keeps the reduction of the carry-less product so far. -/
theorem setWidth_reducePoly_carrylessProduct {n : Nat} (h : n ≤ 8) (a b : Byte) :
    (reducePoly 7 (carrylessProduct a b n)).setWidth 8 = gmulLoop n 0 a b := by
  induction n with
  | zero => exact congrArg (BitVec.setWidth 8) (reducePoly_setWidth 7 0)
  | succ n ih =>
    rw [carrylessProduct, reducePoly_xor, BitVec.setWidth_xor, ih (by omega), gmulLoop_succ_last]
    congr 1
    split
    · exact setWidth_reducePoly_setWidth_shiftLeft (by omega) a
    · rfl

theorem gmul_eq_polyProduct (a b : Byte) : gmul a b = polyProduct a b :=
  (setWidth_reducePoly_carrylessProduct le_rfl a b).symm

/-! ### Commutativity and inverses -/

/-- A constant factor on the right goes into the accumulator and the multiplicand. -/
theorem gmulLoop_gmul (n : Nat) (p a b c : Byte) :
    gmul (gmulLoop n p a b) c = gmulLoop n (gmul p c) (gmul a c) b := by
  induction n generalizing p a b with
  | zero => rfl
  | succ n ih =>
    rw [gmulLoop_succ, ih, gmulLoop_succ, gmul_xor_left, gmul_xtime_left]
    cases b.getLsbD 0 <;> simp

theorem gmul_comm (a b : Byte) : gmul a b = gmul b a := by
  calc gmul a b = gmul (gmul 0x01 a) b := congrArg (gmul · b) (gmul_one_left a).symm
    _ = gmulLoop 8 (gmul 0x00 b) (gmul 0x01 b) a := gmulLoop_gmul 8 0x00 0x01 a b
    _ = gmul b a := congrArg₂ (gmulLoop 8 · · a) (gmul_zero_left b) (gmul_one_left b)

/-- The S-box names the inverse (R141). -/
theorem existsUnique_gmul_eq_one {a : Byte} (h : a ≠ 0) : ∃! b : Byte, gmul a b = 0x01 :=
  ⟨invSboxAffine (sbox a), (gmul_comm _ _).trans (gmul_invSboxAffine_sbox h),
    fun _ => eq_invSboxAffine_sbox⟩

/-! ### Small constants -/

theorem gmul_two_right (a : Byte) : gmul a 0x02 = xtime a :=
  (gmul_comm a 0x02).trans (gmul_two_left a)

theorem gmul_four_left (v : Byte) : gmul 0x04 v = xtime (xtime v) :=
  (gmul_xtime_left 0x02 v).trans (congrArg xtime (gmul_two_left v))

theorem gmul_eight_left (v : Byte) : gmul 0x08 v = xtime (xtime (xtime v)) :=
  (gmul_xtime_left 0x04 v).trans (congrArg xtime (gmul_four_left v))

end Sys2Proof.Machine
end

section
/-! The statements of 44_gf_multiply.md: `xtime`, the laws of `gmul`, the constant multiples, and GF_MUL. -/

open Sys2Proof Sys2Proof.Machine

/-- Settles O58: the loop adds the multiples of `a` by powers of x that the carry-less product adds, each
reduced before and not after; the inverse is the byte the S-box was made from. -/
theorem gmulIsTheFieldProduct : Obligations.GmulIsTheFieldProduct :=
  ⟨gmul_eq_polyProduct, gmul_comm, gmul_assoc, gmul_xor_right,
    fun a => ⟨gmul_zero_right a, gmul_one_right a, gmul_two_right a⟩,
    fun _ => existsUnique_gmul_eq_one, by decide⟩

/-- Settles O57: the two branches of `xtime`. -/
theorem xtimeReducesOnOverflow : Obligations.XtimeReducesOnOverflow :=
  ⟨fun _ h => if_pos h, fun _ h => if_neg (ne_true_of_eq_false h), by decide⟩

/-- Settles O59: each constant is a sum of powers of x. -/
theorem constantMultiplesByXtime : Obligations.ConstantMultiplesByXtime := by
  refine fun v => ⟨gmul_three_left v, ?_, ?_, ?_, ?_⟩
  · rw [show (0x09 : Byte) = 0x08 ^^^ 0x01#8 from rfl, gmul_xor_left, gmul_eight_left, gmul_one_left]
  · rw [show (0x0b : Byte) = 0x08 ^^^ 0x02 ^^^ 0x01#8 from rfl, gmul_xor_left, gmul_xor_left,
      gmul_eight_left, gmul_two_left, gmul_one_left]
  · rw [show (0x0d : Byte) = 0x08 ^^^ 0x04 ^^^ 0x01#8 from rfl, gmul_xor_left, gmul_xor_left,
      gmul_eight_left, gmul_four_left, gmul_one_left]
  · rw [show (0x0e : Byte) = 0x08 ^^^ 0x04 ^^^ 0x02 from rfl, gmul_xor_left, gmul_xor_left,
      gmul_eight_left, gmul_four_left, gmul_two_left]

/-- Settles O60: GF_MUL answers the product in GFR, a nonzero ARG is illegal, and the rest are laws of
`gmul`. -/
theorem gfMulCommand : Obligations.GfMulCommand :=
  ⟨rfl, fun _ => rfl, fun _ s ha => exec_cmdWrite_of_arg_ne_zero ha (by decide) s,
    fun a => ⟨gmul_zero_right a, gmul_zero_left a, gmul_one_right a, gmul_one_left a⟩,
    gmul_comm, by decide⟩

end

section
/-! SUPPORT. How a command fails, said once: it raises one of R201's errors on the engine it found, and
only KEY_LENGTH drops the key first (60_exceptions.md rules R201, R206); and the code a CMD write leaves
in ERR (R203). -/

namespace Sys2Proof.Machine

/-- A command leaves ERR 0, or drops the key and raises KEY_LENGTH, or raises another error on the engine
as it was. -/
theorem commandEffect_ok_or_raise {i : Instr} (hi : i.isCommand = true) (e : Engine) :
    (commandEffect i e).err = 0 ∨ commandEffect i e = e.clearKeyValid.raise .keyLength ∨
      ∃ c : CmdError, c ≠ .keyLength ∧ commandEffect i e = e.raise c := by
  cases i with
  | expandKey =>
    cases h : legalKeyLength e.keylen with
    | true => exact .inl (by rw [commandEffect_expandKey_of_legal h, Engine.ok_err])
    | false => exact .inr (.inl (commandEffect_expandKey_of_illegal h))
  | encrypt | decrypt =>
    cases h : e.keyValid with
    | true => exact .inl (by rw [commandEffect, if_pos h])
    | false => exact .inr (.inr ⟨.noKey, by decide, commandEffect_keyed_of_invalid rfl h⟩)
  | addRoundKey r =>
    cases h : e.keyValid with
    | true =>
      by_cases hr : e.nr < roundIndex r
      · exact .inr (.inr ⟨.roundRange, by decide, by rw [commandEffect, if_pos h, if_pos hr]⟩)
      · exact .inl (by rw [commandEffect, if_pos h, if_neg hr])
    | false => exact .inr (.inr ⟨.noKey, by decide, commandEffect_keyed_of_invalid rfl h⟩)
  | illegalCmd v => exact .inr (.inr ⟨.illegalCmd, by decide, rfl⟩)
  | hostWrite off v | hostRead off => cases hi
  | _ => exact .inl rfl

theorem CmdError.code_eq_one_iff (c : CmdError) : c.code = 1 ↔ c = .keyLength := by
  cases c <;> decide

/-- R206 for the engine: a failure writes ERR, and KEY_VALID when it is KEY_LENGTH. -/
theorem commandEffect_of_err_ne_zero {i : Instr} (hi : i.isCommand = true) {e : Engine}
    (h : (commandEffect i e).err ≠ 0) :
    commandEffect i e = { e with
      err := (commandEffect i e).err
      keyValid := if (commandEffect i e).err = 1 then false else e.keyValid } := by
  obtain hok | hraise | ⟨c, hc, hraise⟩ := commandEffect_ok_or_raise hi e
  · exact absurd hok h
  · rw [hraise]
    rfl
  · rw [hraise, Engine.raise_err, if_neg (mt c.code_eq_one_iff.1 hc)]
    rfl

theorem resultCode_addRoundKey_of_lt {e : Engine} {r : BitVec 4} (hv : e.keyValid = true)
    (hr : e.nr.toNat < r.toNat) : resultCode (.addRoundKey r) e = 3 :=
  (if_pos hv).trans (if_pos hr)

/-- A CMD write leaves in ERR R201's code of the command the byte names. -/
theorem exec_cmdWrite_err {v : Byte} {i : Instr} {code : BitVec 3} {s : State}
    (hd : decodeCommand v = i) (hcode : resultCode i { s.engine with cmd := v } = code) :
    ∃ t : State, exec (.hostWrite 0x000 v) s = .next t ∧ t.engine.err = code := by
  have hi := decodeCommand_isCommand v
  exact ⟨_, (exec_cmdWrite_eq v s).trans (exec_command_eq hi _),
    (commandEffect_err hi _).trans (hd ▸ hcode)⟩

end Sys2Proof.Machine
end

section
/-! The statements of 60_exceptions.md: which failure a command reports, that a failing command has no
partial effect, and that an idle engine holds all state. -/

open Sys2Proof Sys2Proof.Machine

/-- Settles O30: the byte decides ILLEGAL_CMD; then the command's own checks give R201's code, the key
before the round. -/
theorem errorPrecedence : Obligations.ErrorPrecedence := by
  intro s
  refine ⟨fun v hd => exec_cmdWrite_err hd rfl,
    fun hl => exec_cmdWrite_err rfl (resultCode_expandKey_of_illegal hl),
    fun hv => ⟨?encrypt, ?decrypt, fun r => ?addRoundKey⟩,
    fun r hv hr => exec_cmdWrite_err (decodeCommand_addRoundKey r) (resultCode_addRoundKey_of_lt hv hr),
    exec_cmdWrite_err (i := .illegalCmd 0x1B) rfl rfl,
    fun hv => ⟨?addRoundKey15, exec_cmdWrite_err (i := .illegalCmd 0x12) rfl rfl⟩⟩
  case encrypt => exact exec_cmdWrite_err rfl (resultCode_keyed_of_invalid (i := .encrypt) rfl hv)
  case decrypt => exact exec_cmdWrite_err rfl (resultCode_keyed_of_invalid (i := .decrypt) rfl hv)
  case addRoundKey =>
    exact exec_cmdWrite_err (decodeCommand_addRoundKey r) (resultCode_keyed_of_invalid rfl hv)
  case addRoundKey15 =>
    exact exec_cmdWrite_err rfl (resultCode_keyed_of_invalid (i := .addRoundKey 15) rfl hv)

/-- Settles O31: a CMD write is the decoded command with CMD stored, and a failing command writes ERR,
and KEY_VALID on KEY_LENGTH, only. -/
theorem failingCommandsHaveNoPartialEffect : Obligations.FailingCommandsHaveNoPartialEffect := by
  intro v s
  have hi := decodeCommand_isCommand v
  exact ⟨_, (exec_cmdWrite_eq v s).trans (exec_command_eq hi _), fun h =>
    congrArg s.withEngine (commandEffect_of_err_ne_zero hi h)⟩

/-- Settles O10: with nothing pending, `step` takes its idle branch. -/
theorem idleStepHoldsAllState : Obligations.IdleStepHoldsAllState := fun _ => step_of_pending_nil

end

section
/-! SUPPORT. Which KEY bytes the expansion reads (41_key_schedule.md rule R122), and the engine right
after reset (70_reset_and_hazards.md rule R230). -/

namespace Sys2Proof.Machine

theorem take_toList_eq_of_agree {n : Nat} {key key' : KeyBytes}
    (h : ∀ k : Fin 32, k.val < n → key'[k] = key[k]) : key'.toList.take n = key.toList.take n := by
  apply List.ext_getElem
  · simp
  · intro i hi _
    obtain ⟨hn, h32⟩ : i < n ∧ i < 32 := by simpa using hi
    simpa using h ⟨i, h32⟩ hn

/-- R122: the raw key, KEY[0 .. KEYLEN−1], is all the expansion reads of KEY. -/
theorem expandedKey_eq_of_agree {keylen : Byte} {key key' : KeyBytes}
    (h : ∀ k : Fin 32, k.val < keylen.toNat → key'[k] = key[k]) :
    expandedKey keylen key' = expandedKey keylen key :=
  congrArg (fun k => layoutRoundKeys (nkOf keylen) (keyExpansion (nkOf keylen) k))
    (take_toList_eq_of_agree h)

/-- Power-on and the reset input leave one engine (R230). -/
theorem engine_eq_reset {t : State}
    (h : t = State.reset ∨
      ∃ (s : State) (rest : List PortInput), s.pending = .reset :: rest ∧ step s = .next t) :
    t.engine = Engine.reset := by
  obtain rfl | ⟨s, rest, hp, hstep⟩ := h
  · rfl
  · rw [step_of_pending_reset hp] at hstep
    cases hstep
    rfl

end Sys2Proof.Machine
end

section
/-! The statements of 70_reset_and_hazards.md: what reset leaves, that the reset input completes, and that
KEY bytes past KEYLEN play no part in EXPAND_KEY. -/

open Sys2Proof Sys2Proof.Machine

/-- Settles O42: EXPAND_KEY installs the expansion of KEY under KEYLEN, which reads only the bytes on
which the two keys agree, and writes no KEY byte. -/
theorem keyBytesPastTheLengthAreNotRead : Obligations.KeyBytesPastTheLengthAreNotRead := by
  intro s s' hlegal hlen hkey
  have hlegal' : legalKeyLength s'.engine.keylen = true := hlen ▸ hlegal
  refine ⟨_, _, exec_expandKey_of_legal hlegal, exec_expandKey_of_legal hlegal', ?rk, ?nr, rfl, rfl⟩
  case rk => simp [hlen, expandedKey_eq_of_agree hkey]
  case nr => simp [hlen]

/-- Settles O11: either way the engine is `Engine.reset`, whose vectors are replicated zeros. -/
theorem resetPutsEveryRegisterAtZero : Obligations.ResetPutsEveryRegisterAtZero := by
  intro t ht
  rw [engine_eq_reset ht]
  exact ⟨rfl, rfl, rfl, rfl, rfl, rfl, rfl, rfl, rfl, fun k => Vector.getElem_replicate k.isLt,
    fun k => Vector.getElem_replicate k.isLt, fun j => Vector.getElem_replicate j.isLt⟩

/-- Settles O12: with a reset at the head of the port, `step` takes its reset branch. -/
theorem resetInputCompletes : Obligations.ResetInputCompletes := fun _ _ => step_of_pending_reset

end
